-- ==== Sys2Proof/Word.lean ====
section
/-! DEFINITION. Word.lean: the word types of the KSoft bit core (spec 00_scope.md R5, R6, R9). -/

namespace Sys2Proof

/-- A word of bit width `w`: an unsigned number 0 to `2^w - 1`, bit `i` of weight `2^i`
(00_scope.md R8, R9). Commands use `w` = 8, 16, 32, 64 (R5). -/
abbrev Word (w : Nat) := BitVec w

/-- A 64-bit port or the 64-bit handle storage (00_scope.md R6). -/
abbrev Port := BitVec 64

/-- A 32-bit command word (30_encoding.md R50). -/
abbrev CmdWord := BitVec 32

/-- The 8-bit second result port `R2` (00_scope.md R6). -/
abbrev SmallResult := BitVec 8

end Sys2Proof
end

