-- ==== Sys2Proof/Syntax.lean ====
section
/-! DEFINITION. Syntax.lean: the 29 commands of 30_encoding.md R55, one constructor for each row of spec/opcode_table.json. -/

namespace Sys2Proof

/-- The word width of a command (00_scope.md R5, 30_encoding.md R52). -/
inductive Width where
  | w8 | w16 | w32 | w64
deriving DecidableEq, Repr

/-- A command: its mnemonic, its width `ws`, and the small operands `p` and `q` its format uses (30_encoding.md R53).
The operand values `A`, `B`, `C` are not part of the command word (R54): they arrive on ports. -/
inductive Instr where
  | bitcnt (ws : Width)
  | rol (ws : Width) (p : Nat)
  | ror (ws : Width) (p : Nat)
  | shl (ws : Width) (p : Nat)
  | shr (ws : Width) (p : Nat)
  | maskn (ws : Width) (p : Nat)
  | vemaskle (ws : Width) (p : Nat)
  | vemaskbe (ws : Width) (p : Nat)
  | secmaskle (ws : Width) (p : Nat)
  | secmaskbe (ws : Width) (p : Nat)
  | nonetraits (ws : Width)
  | enumbits (ws : Width)
  | extr (ws : Width) (p q : Nat)
  | extv (ws : Width) (p q : Nat)
  | dec (ws : Width) (p : Nat)
  | decn (ws : Width) (p : Nat)
  | ence (ws : Width) (p : Nat)
  | encf (ws : Width) (p : Nat)
  | encn (ws : Width) (p : Nat)
  | hinit
  | hseed (ws : Width)
  | henc (ws : Width)
  | hencn (ws : Width)
  | hdec (ws : Width)
  | hdecn (ws : Width)
  | hget (ws : Width)
  | bitrev (ws : Width)
  | bitswap (ws : Width) (p : Nat)
  | sext (ws : Width) (p : Nat)
deriving DecidableEq, Repr

end Sys2Proof
end

