-- ==== Sys2Proof/Machine/State.lean ====
section
/-! DEFINITION. State.lean: the state of one block (10_state.md R20), its ports (R25), and the ways a step can stop. -/

namespace Sys2Proof.Machine

/-- The fault causes of 60_exceptions.md R150 and R151. Their code numbers are `faultCode` in Flags.lean.
LOCKED (7) is no fault cause: it is the answer `Response.locked`. -/
inductive FaultCause where
  /-- The command word matches no row of the opcode map. -/
  | illegalCmd
  /-- A bit index, shift amount or range bound is out of range. -/
  | badIndex
  /-- The mask operand is 0. -/
  | zeroMask
  /-- A bit count is out of range, or index + count passes the top of the word. -/
  | badCount
  /-- An encoder command would move the cursor past `W`. -/
  | cursorOverflow
  /-- A `maxValue` argument is below its minimum. -/
  | badArg
deriving DecidableEq, Repr

/-- The response to one command (00_scope.md R11, R12). `R` and `R2` exist in the OK case only: on a fault they carry no
value (60_exceptions.md R153, 93_implementation_defined.md U3). -/
inductive Response where
  /-- `ST = 0`: the command completed with `R = r` and `R2 = r2`. -/
  | ok (r : Port) (r2 : SmallResult)
  /-- `ST` = 1 to 6: the command raised a fault (R153). -/
  | fault (cause : FaultCause)
  /-- `ST = 7`: the block is locked and the command was not looked at (R155). -/
  | locked
deriving DecidableEq, Repr

/-- The values on the operand ports `A`, `B`, `C` (10_state.md R25). -/
structure Operands where
  a : Port
  b : Port
  c : Port
deriving DecidableEq, Repr

/-- One action of the host on the block: a reset request, or a command word with its operand values
(70_reset_and_hazards.md R170; 93_implementation_defined.md U9). -/
inductive HostInput where
  | reset
  | command (cmd : CmdWord) (operands : Operands)
deriving DecidableEq, Repr

/-- The architectural state of one block: exactly these three elements (10_state.md R20). -/
structure Block where
  /-- `H`, the handle storage (R21). -/
  h : Port
  /-- `CUR`, the bit cursor (R22). -/
  cur : BitVec 7
  /-- `FLT`, the fault latch, also the output port `flt` (R24, R25). -/
  flt : BitVec 4
deriving DecidableEq, Repr

/-- What one command does to a block: the response, and the three elements after it (00_scope.md R12). -/
structure Reply where
  response : Response
  block : Block
deriving DecidableEq, Repr

/-- A block together with the host's side of its ports, as one value that `step` can run on. The state of the hardware is
`Block` alone (10_state.md R20): Machine/BlockMachine.lean is the block as a machine over it, with the command stream and
the operand values as inputs (R31). The other three fields carry those inputs in and the answer out, because the type of
`step` gives it no other argument (DESIGN CHOICE, notes/assumptions/1.md to 3.md). -/
structure State where
  /-- The architectural state. -/
  block : Block
  /-- The operand ports as sampled with the command being answered. -/
  operands : Operands
  /-- The output ports `ST`, `R`, `R2`: the response to the last command, none before the first (R171). -/
  response : Option Response
  /-- What the host is still going to present, in order (00_scope.md R12). -/
  pending : List HostInput
deriving DecidableEq, Repr

/-- Why the machine can stop. Every fault of the spec is an answer of the block and so a next state, never one of these. -/
inductive Fault where
  /-- Raised by `step` when the host presents nothing: there is no step without a command (00_scope.md R12).
  Safe: the model stops where the block waits unchanged. -/
  | noCommand
deriving DecidableEq, Repr

/-- Why a meaning can be missing. -/
inductive Refusal where
  /-- Raised by an arm of `exec` whose instruction has no meaning yet. No arm raises it. Safe. -/
  | notModelled (mnemonic : String)
deriving DecidableEq, Repr

/-- The block after reset: `H = 0`, `CUR = 0`, `FLT = 0` (10_state.md R32, 70_reset_and_hazards.md R170). -/
def Block.reset : Block := { h := 0, cur := 0, flt := 0 }

/-- The machine right after reset. The outputs have no value yet (70_reset_and_hazards.md R171); nothing is presented. -/
def State.reset : State :=
  { block := Block.reset, operands := { a := 0, b := 0, c := 0 }, response := none, pending := [] }

end Sys2Proof.Machine
end

