-- ==== Sys2Proof/Machine/Flags.lean ====
section
/-! DEFINITION. Flags.lean: status codes and the fault latch. The block has no arithmetic flag (10_state.md R28): the status
`ST` of a response and the latch `FLT` are all there is. -/

namespace Sys2Proof.Machine

/-- The code of a fault cause (60_exceptions.md R150). -/
def faultCode : FaultCause → BitVec 4
  | .illegalCmd => 1
  | .badIndex => 2
  | .zeroMask => 3
  | .badCount => 4
  | .cursorOverflow => 5
  | .badArg => 6

/-- The status `ST` of a response (60_exceptions.md R150). -/
def statusOf : Response → BitVec 4
  | .ok _ _ => 0
  | .fault cause => faultCode cause
  | .locked => 7

/-- The latch after a fault: it takes the code only while it is 0 (10_state.md R24, 60_exceptions.md R153). -/
def latch (flt code : BitVec 4) : BitVec 4 := if flt = 0 then code else flt

/-- The block is locked: `FLT != 0` (60_exceptions.md R155). -/
def locked (b : Block) : Bool := decide (b.flt ≠ 0)

end Sys2Proof.Machine
end

