-- ==== Sys2Proof/WellFormed.lean ====
section
/-! DEFINITION. WellFormed.lean: which terms of `Instr` a command word can spell (30_encoding.md R51, R54, R56). -/

namespace Sys2Proof

/-- A small operand is an unsigned 8-bit number (30_encoding.md R54). -/
def smallOperandFits (n : Nat) : Bool := decide (n < 256)

/-- The encoder commands exist at 32 and 64 bits only (30_encoding.md R56). -/
def encoderWidth : Width → Bool
  | .w8 => false
  | .w16 => false
  | .w32 => true
  | .w64 => true

/-- The command has an encoding: its small operands fit their fields and an encoder command has an encoder width. -/
def Instr.wellFormed : Instr → Bool
  | .bitcnt _ => true
  | .rol _ p => smallOperandFits p
  | .ror _ p => smallOperandFits p
  | .shl _ p => smallOperandFits p
  | .shr _ p => smallOperandFits p
  | .maskn _ p => smallOperandFits p
  | .vemaskle _ p => smallOperandFits p
  | .vemaskbe _ p => smallOperandFits p
  | .secmaskle _ p => smallOperandFits p
  | .secmaskbe _ p => smallOperandFits p
  | .nonetraits _ => true
  | .enumbits _ => true
  | .extr _ p q => smallOperandFits p && smallOperandFits q
  | .extv _ p q => smallOperandFits p && smallOperandFits q
  | .dec _ p => smallOperandFits p
  | .decn _ p => smallOperandFits p
  | .ence _ p => smallOperandFits p
  | .encf _ p => smallOperandFits p
  | .encn _ p => smallOperandFits p
  | .hinit => true
  | .hseed ws => encoderWidth ws
  | .henc ws => encoderWidth ws
  | .hencn ws => encoderWidth ws
  | .hdec ws => encoderWidth ws
  | .hdecn ws => encoderWidth ws
  | .hget ws => encoderWidth ws
  | .bitrev _ => true
  | .bitswap _ p => smallOperandFits p
  | .sext _ p => smallOperandFits p

end Sys2Proof
end

