-- ==== Sys2Proof/Decode.lean ====
section
/-! DEFINITION. Decode.lean: the command word of 30_encoding.md: its fields (R51), the decoder (R60), the encoder, and the
opcode map by match and mask (R55). -/

namespace Sys2Proof

/-! ## Width select (R52) -/

/-- The `ws` field of a width. -/
def Width.code : Width → Nat
  | .w8 => 0
  | .w16 => 1
  | .w32 => 2
  | .w64 => 3

/-- The width `W` in bits, `W = 8 << ws` (R52). -/
def Width.bits : Width → Nat
  | .w8 => 8
  | .w16 => 16
  | .w32 => 32
  | .w64 => 64

/-- The width a two-bit `ws` field selects (R52). -/
def widthOfCode : Nat → Width
  | 0 => .w8
  | 1 => .w16
  | 2 => .w32
  | _ => .w64

/-! ## Fields (R51) -/

/-- The `len` bits of a command word from bit `lo` up, as a number. -/
def cmdBits (cmd : CmdWord) (lo len : Nat) : Nat := cmd.toNat / 2 ^ lo % 2 ^ len

/-- `op`, bits 31:24. -/
def opField (cmd : CmdWord) : Nat := cmdBits cmd 24 8

/-- `z`, bits 23:18, reserved. -/
def zField (cmd : CmdWord) : Nat := cmdBits cmd 18 6

/-- `ws`, bits 17:16. -/
def wsField (cmd : CmdWord) : Nat := cmdBits cmd 16 2

/-- `q`, bits 15:8. -/
def qField (cmd : CmdWord) : Nat := cmdBits cmd 8 8

/-- `p`, bits 7:0. -/
def pField (cmd : CmdWord) : Nat := cmdBits cmd 0 8

/-! ## Decoding (R60) -/

/-- Why a word is illegal (R57, R58). Every one of them is the same fault, ILLEGAL_CMD. -/
inductive IllegalReason where
  /-- The `z` field is not zero. -/
  | reservedZ
  /-- The opcode is not in the map of R55. -/
  | unknownOpcode
  /-- The format does not use `p` and it is not zero. -/
  | reservedP
  /-- The format does not use `q` and it is not zero. -/
  | reservedQ
  /-- HINIT with a non-zero `ws`. -/
  | reservedWs
  /-- An encoder command with `ws` 0 or 1. -/
  | narrowEncoder
deriving DecidableEq, Repr

/-- Format N: `ws` only (R53). -/
def formatN (ws q p : Nat) (k : Width → Instr) : Except IllegalReason Instr :=
  if p ≠ 0 then .error .reservedP
  else if q ≠ 0 then .error .reservedQ
  else .ok (k (widthOfCode ws))

/-- Format P: `ws` and `p` (R53). -/
def formatP (ws q p : Nat) (k : Width → Nat → Instr) : Except IllegalReason Instr :=
  if q ≠ 0 then .error .reservedQ
  else .ok (k (widthOfCode ws) p)

/-- Format PQ: `ws`, `p` and `q` (R53). -/
def formatPQ (ws q p : Nat) (k : Width → Nat → Nat → Instr) : Except IllegalReason Instr :=
  .ok (k (widthOfCode ws) p q)

/-- Format H: `ws` in 2, 3 (R53, R56). -/
def formatH (ws q p : Nat) (k : Width → Instr) : Except IllegalReason Instr :=
  if p ≠ 0 then .error .reservedP
  else if q ≠ 0 then .error .reservedQ
  else if ws < 2 then .error .narrowEncoder
  else .ok (k (widthOfCode ws))

/-- Format Z: nothing (R53, R56). -/
def formatZ (ws q p : Nat) (i : Instr) : Except IllegalReason Instr :=
  if p ≠ 0 then .error .reservedP
  else if q ≠ 0 then .error .reservedQ
  else if ws ≠ 0 then .error .reservedWs
  else .ok i

/-- The command an opcode selects, given the other fields (R55, R60). -/
def decodeOp (op ws q p : Nat) : Except IllegalReason Instr :=
  match op with
  | 0x01 => formatN ws q p .bitcnt
  | 0x10 => formatP ws q p .rol
  | 0x11 => formatP ws q p .ror
  | 0x12 => formatP ws q p .shl
  | 0x13 => formatP ws q p .shr
  | 0x20 => formatP ws q p .maskn
  | 0x21 => formatP ws q p .vemaskle
  | 0x22 => formatP ws q p .vemaskbe
  | 0x23 => formatP ws q p .secmaskle
  | 0x24 => formatP ws q p .secmaskbe
  | 0x25 => formatN ws q p .nonetraits
  | 0x26 => formatN ws q p .enumbits
  | 0x30 => formatPQ ws q p .extr
  | 0x31 => formatPQ ws q p .extv
  | 0x32 => formatP ws q p .dec
  | 0x33 => formatP ws q p .decn
  | 0x40 => formatP ws q p .ence
  | 0x41 => formatP ws q p .encf
  | 0x42 => formatP ws q p .encn
  | 0x50 => formatZ ws q p .hinit
  | 0x51 => formatH ws q p .hseed
  | 0x52 => formatH ws q p .henc
  | 0x53 => formatH ws q p .hencn
  | 0x54 => formatH ws q p .hdec
  | 0x55 => formatH ws q p .hdecn
  | 0x56 => formatH ws q p .hget
  | 0x60 => formatN ws q p .bitrev
  | 0x61 => formatP ws q p .bitswap
  | 0x62 => formatP ws q p .sext
  | _ => .error .unknownOpcode

/-- The decoder of R60: total on any 32-bit word. -/
def decode (cmd : CmdWord) : Except IllegalReason Instr :=
  if zField cmd ≠ 0 then .error .reservedZ
  else decodeOp (opField cmd) (wsField cmd) (qField cmd) (pField cmd)

/-- The command word of `nbits` bits numbered `w`, bits above `nbits` zero. The block takes a command word as one
32-bit number (20_memory.md R41, R48), so there is no byte order to lay it out in. -/
def cmdWordOf (nbits w : Nat) : CmdWord := BitVec.ofNat 32 (w % 2 ^ nbits)

/-- The instruction the decoder reads from a word numbered as spec/opcode_table.json numbers it. -/
def decodeTableWord (nbits w : Nat) : Option Instr :=
  match decode (cmdWordOf nbits w) with
  | .ok i => some i
  | .error _ => none

/-! ## Encoding (R51, R55) -/

/-- `op * 2^24 + z * 2^18 + ws * 2^16 + q * 2^8 + p` with `z = 0` (R51). -/
def packWord (op : Nat) (ws : Nat) (q p : Nat) : CmdWord :=
  BitVec.ofNat 32 (op * 2 ^ 24 + ws * 2 ^ 16 + q * 2 ^ 8 + p)

/-- The opcode of a command (R55). -/
def opcodeOf : Instr → Nat
  | .bitcnt _ => 0x01
  | .rol _ _ => 0x10
  | .ror _ _ => 0x11
  | .shl _ _ => 0x12
  | .shr _ _ => 0x13
  | .maskn _ _ => 0x20
  | .vemaskle _ _ => 0x21
  | .vemaskbe _ _ => 0x22
  | .secmaskle _ _ => 0x23
  | .secmaskbe _ _ => 0x24
  | .nonetraits _ => 0x25
  | .enumbits _ => 0x26
  | .extr _ _ _ => 0x30
  | .extv _ _ _ => 0x31
  | .dec _ _ => 0x32
  | .decn _ _ => 0x33
  | .ence _ _ => 0x40
  | .encf _ _ => 0x41
  | .encn _ _ => 0x42
  | .hinit => 0x50
  | .hseed _ => 0x51
  | .henc _ => 0x52
  | .hencn _ => 0x53
  | .hdec _ => 0x54
  | .hdecn _ => 0x55
  | .hget _ => 0x56
  | .bitrev _ => 0x60
  | .bitswap _ _ => 0x61
  | .sext _ _ => 0x62

/-- The command word of a command (R51, R53, R55). -/
def encode (i : Instr) : CmdWord :=
  match i with
  | .bitcnt ws => packWord (opcodeOf i) ws.code 0 0
  | .rol ws p => packWord (opcodeOf i) ws.code 0 p
  | .ror ws p => packWord (opcodeOf i) ws.code 0 p
  | .shl ws p => packWord (opcodeOf i) ws.code 0 p
  | .shr ws p => packWord (opcodeOf i) ws.code 0 p
  | .maskn ws p => packWord (opcodeOf i) ws.code 0 p
  | .vemaskle ws p => packWord (opcodeOf i) ws.code 0 p
  | .vemaskbe ws p => packWord (opcodeOf i) ws.code 0 p
  | .secmaskle ws p => packWord (opcodeOf i) ws.code 0 p
  | .secmaskbe ws p => packWord (opcodeOf i) ws.code 0 p
  | .nonetraits ws => packWord (opcodeOf i) ws.code 0 0
  | .enumbits ws => packWord (opcodeOf i) ws.code 0 0
  | .extr ws p q => packWord (opcodeOf i) ws.code q p
  | .extv ws p q => packWord (opcodeOf i) ws.code q p
  | .dec ws p => packWord (opcodeOf i) ws.code 0 p
  | .decn ws p => packWord (opcodeOf i) ws.code 0 p
  | .ence ws p => packWord (opcodeOf i) ws.code 0 p
  | .encf ws p => packWord (opcodeOf i) ws.code 0 p
  | .encn ws p => packWord (opcodeOf i) ws.code 0 p
  | .hinit => packWord (opcodeOf i) 0 0 0
  | .hseed ws => packWord (opcodeOf i) ws.code 0 0
  | .henc ws => packWord (opcodeOf i) ws.code 0 0
  | .hencn ws => packWord (opcodeOf i) ws.code 0 0
  | .hdec ws => packWord (opcodeOf i) ws.code 0 0
  | .hdecn ws => packWord (opcodeOf i) ws.code 0 0
  | .hget ws => packWord (opcodeOf i) ws.code 0 0
  | .bitrev ws => packWord (opcodeOf i) ws.code 0 0
  | .bitswap ws p => packWord (opcodeOf i) ws.code 0 p
  | .sext ws p => packWord (opcodeOf i) ws.code 0 p

/-! ## The opcode map by match and mask (R55) -/

/-- One row of the opcode map: the words `cmd` with `cmd & mask = bits` select the command of `opcode`. -/
structure OpcodeRow where
  opcode : Nat
  bits : CmdWord
  mask : CmdWord
deriving DecidableEq, Repr

/-- A word matches a row of the map (R55). -/
def OpcodeRow.selects (row : OpcodeRow) (cmd : CmdWord) : Bool := decide (cmd &&& row.mask = row.bits)

/-- The opcode map as R55 prints it. -/
def opcodeMap : List OpcodeRow :=
  [⟨0x01, 0x01000000, 0xFFFCFFFF⟩, ⟨0x10, 0x10000000, 0xFFFCFF00⟩, ⟨0x11, 0x11000000, 0xFFFCFF00⟩,
   ⟨0x12, 0x12000000, 0xFFFCFF00⟩, ⟨0x13, 0x13000000, 0xFFFCFF00⟩, ⟨0x20, 0x20000000, 0xFFFCFF00⟩,
   ⟨0x21, 0x21000000, 0xFFFCFF00⟩, ⟨0x22, 0x22000000, 0xFFFCFF00⟩, ⟨0x23, 0x23000000, 0xFFFCFF00⟩,
   ⟨0x24, 0x24000000, 0xFFFCFF00⟩, ⟨0x25, 0x25000000, 0xFFFCFFFF⟩, ⟨0x26, 0x26000000, 0xFFFCFFFF⟩] ++
  [⟨0x30, 0x30000000, 0xFFFC0000⟩, ⟨0x31, 0x31000000, 0xFFFC0000⟩, ⟨0x32, 0x32000000, 0xFFFCFF00⟩,
   ⟨0x33, 0x33000000, 0xFFFCFF00⟩, ⟨0x40, 0x40000000, 0xFFFCFF00⟩, ⟨0x41, 0x41000000, 0xFFFCFF00⟩,
   ⟨0x42, 0x42000000, 0xFFFCFF00⟩, ⟨0x50, 0x50000000, 0xFFFFFFFF⟩, ⟨0x51, 0x51020000, 0xFFFEFFFF⟩,
   ⟨0x52, 0x52020000, 0xFFFEFFFF⟩, ⟨0x53, 0x53020000, 0xFFFEFFFF⟩, ⟨0x54, 0x54020000, 0xFFFEFFFF⟩] ++
  [⟨0x55, 0x55020000, 0xFFFEFFFF⟩, ⟨0x56, 0x56020000, 0xFFFEFFFF⟩, ⟨0x60, 0x60000000, 0xFFFCFFFF⟩,
   ⟨0x61, 0x61000000, 0xFFFCFF00⟩, ⟨0x62, 0x62000000, 0xFFFCFF00⟩]

end Sys2Proof
end

