-- ==== Sys2Proof/Machine/Operands.lean ====
section
/-! DEFINITION. Operands.lean: how a command reads its operands and the handle, and places its results
(00_scope.md R11, 45_bitfield_encoder_fsm.md R122). -/

namespace Sys2Proof.Machine

/-- `trunc_W` of a 64-bit port: the bits from `W` up are ignored (00_scope.md R11). -/
def truncPort (ws : Width) (v : Port) : Word ws.bits := v.setWidth ws.bits

/-- `a = trunc_W(A)`: the word examined or modified, or the only operand. -/
def opA (ws : Width) (ops : Operands) : Word ws.bits := truncPort ws ops.a

/-- `b = trunc_W(B)`: the value to insert. -/
def opB (ws : Width) (ops : Operands) : Word ws.bits := truncPort ws ops.b

/-- `m = trunc_W(C)`: the field mask. -/
def opM (ws : Width) (ops : Operands) : Word ws.bits := truncPort ws ops.c

/-- `zext_64`: a word on the 64-bit result port, upper bits 0. -/
def zext64 {w : Nat} (v : Word w) : Port := v.setWidth 64

/-- A count or index on the result port `R`. -/
def countR (n : Nat) : Port := BitVec.ofNat 64 n

/-- A count, an index or the cursor on the second result port `R2`. -/
def smallR2 (n : Nat) : SmallResult := BitVec.ofNat 8 n

/-- `h = H[W-1:0]`, the part of the handle a command of width `W` works on (R122). -/
def handleLow (ws : Width) (b : Block) : Word ws.bits := truncPort ws b.h

/-- The handle with its low `W` bits replaced, the upper bits left as they were (R122). -/
def handleWithLow (ws : Width) (b : Block) (v : Word ws.bits) : Port :=
  (b.h >>> ws.bits) <<< ws.bits ||| zext64 v

/-- `CUR` as a number (10_state.md R22). -/
def cursor (b : Block) : Nat := b.cur.toNat

end Sys2Proof.Machine
end

