-- ==== Sys2Proof/Machine/Primitives.lean ====
section
/-! DEFINITION. Primitives.lean: the pseudocode primitives of 00_scope.md R10, total on every argument. -/

namespace Sys2Proof.Machine

/-- `ones_W`, the all-ones word. -/
def ones (w : Nat) : Word w := BitVec.ofNat w (2 ^ w - 1)

/-- `not_W(v) = ones_W - v`. -/
def notW {w : Nat} (v : Word w) : Word w := BitVec.ofNat w (2 ^ w - 1 - v.toNat)

/-- `shl_W(v, n) = (v * 2^n) mod 2^W` (also 41_barrel_shifter.md R75). -/
def shlW {w : Nat} (v : Word w) (n : Nat) : Word w := BitVec.ofNat w (v.toNat * 2 ^ n)

/-- `shr(v, n) = floor(v / 2^n)` (also 41_barrel_shifter.md R75). -/
def shrW {w : Nat} (v : Word w) (n : Nat) : Word w := BitVec.ofNat w (v.toNat / 2 ^ n)

/-- `mask(n) = 2^n - 1` as a `W`-bit word, for `n ≤ W`. -/
def maskW (w n : Nat) : Word w := BitVec.ofNat w (2 ^ n - 1)

/-- `popcount(v)`, the number of 1 digits (40_bit_counter.md R70). -/
def popcount {w : Nat} (v : Word w) : Nat := (List.range w).countP fun i => v.getLsbD i

/-- `bitlen(v)`: 0 for 0, else the index of the highest 1 bit plus one. -/
def bitlen (v : Nat) : Nat := if v = 0 then 0 else Nat.log2 v + 1

/-- `sgn_W(v)`: the signed number a word stands for (00_scope.md R9). No command uses it; R144 speaks of it. -/
def sgnW {w : Nat} (v : Word w) : Int := if v.toNat < 2 ^ (w - 1) then v.toNat else (v.toNat : Int) - 2 ^ w

/-- The number whose bit `i`, for `i < n`, is `f i`. -/
def bitSum (f : Nat → Bool) : Nat → Nat
  | 0 => 0
  | n + 1 => bitSum f n + (f n).toNat * 2 ^ n

/-- The word whose bit `i` is `f i` (the pseudocode's `for i in 0 .. W-1 : r[i] <- f i`). -/
def wordOfBits (w : Nat) (f : Nat → Bool) : Word w := BitVec.ofNat w (bitSum f w)

end Sys2Proof.Machine
end

