-- ==== Sys2Proof/Machine/Ops.lean ====
section
/-! DEFINITION. Ops.lean: the frame every command runs in (60_exceptions.md R153 to R155), the shared field operations,
and what happens to the ports and on a reset. -/

namespace Sys2Proof.Machine

/-! ## Field operations -/

/-- The field at index `p` under the right-justified mask `m`: `and(shr(w, p), m)` (43_field_extract.md R100, R103). -/
def extractField {w : Nat} (v m : Word w) (p : Nat) : Word w := shrW v p &&& m

/-- `ins = shl_W(and(b, m), p)`: a value cut to the mask and moved to its place (44_field_insert.md R110). -/
def fieldBits {w : Nat} (b m : Word w) (p : Nat) : Word w := shlW (b &&& m) p

/-- Clear-then-set insertion (44_field_insert.md R111). -/
def insertField {w : Nat} (v b m : Word w) (p : Nat) : Word w :=
  (v &&& notW (shlW m p)) ||| fieldBits b m p

/-- OR-only insertion (44_field_insert.md R112). -/
def orField {w : Nat} (v b m : Word w) (p : Nat) : Word w := v ||| fieldBits b m p

/-- The stored code of a noneable value, `(b + 1) mod 2^W` (44_field_insert.md R113). -/
def noneableCode {w : Nat} (b : Word w) : Word w := BitVec.ofNat w (b.toNat + 1)

/-- The noneable value of a stored code, `(e + 2^W - 1) mod 2^W` (43_field_extract.md R104). -/
def noneableValue {w : Nat} (e : Word w) : Word w := BitVec.ofNat w (e.toNat + 2 ^ w - 1)

/-! ## Fault entry, lock and completion -/

/-- Fault entry (60_exceptions.md R153): the response is the fault with no result, `FLT` latches the code, `H` and `CUR`
are unchanged. There is no return from a fault (R156); only reset clears the latch. -/
def raiseFault (cause : FaultCause) (b : Block) : Reply :=
  { response := .fault cause, block := { b with flt := latch b.flt (faultCode cause) } }

/-- The answer of a locked block: LOCKED, no result, no change of `H`, `CUR`, `FLT` (60_exceptions.md R155). -/
def answerLocked (b : Block) : Reply := { response := .locked, block := b }

/-- What a command that completes yields: its results, and `H` and `CUR` after it. It cannot write `FLT`. -/
structure Answer where
  r : Port
  r2 : SmallResult
  h : Port
  cur : BitVec 7
deriving DecidableEq, Repr

/-- The answer of a command that writes neither `H` nor `CUR`. -/
def pureAnswer (b : Block) (r : Port) (r2 : Nat) : Answer :=
  { r := r, r2 := smallR2 r2, h := b.h, cur := b.cur }

/-- The answer of a command that leaves the handle `h` and the cursor at `cur`. -/
def encoderAnswer (r : Port) (r2 : Nat) (h : Port) (cur : Nat) : Answer :=
  { r := r, r2 := smallR2 r2, h := h, cur := BitVec.ofNat 7 cur }

/-- A command completes: `ST = OK`, its results on `R` and `R2`, its state update as a whole (20_memory.md R44). -/
def complete (ans : Answer) (b : Block) : Reply :=
  { response := .ok ans.r ans.r2, block := { b with h := ans.h, cur := ans.cur } }

/-- The cause of the first test that fails, if any: each pair is a failing condition and its cause. -/
def firstFault : List (Bool × FaultCause) → Option FaultCause
  | [] => none
  | (failed, cause) :: rest => if failed then some cause else firstFault rest

/-- The frame of every command (60_exceptions.md R154): the lock test, then the command's own tests in order, then its
effect. Decoding (step 2 of R154) has been done by then. -/
def perform (b : Block) (tests : List (Bool × FaultCause)) (ans : Answer) : Reply :=
  if locked b then answerLocked b
  else
    match firstFault tests with
    | some cause => raiseFault cause b
    | none => complete ans b

/-- The reply to an illegal command word: LOCKED when the block is locked, else ILLEGAL_CMD (30_encoding.md R58,
60_exceptions.md R154 steps 1 and 2). -/
def replyIllegal (b : Block) : Reply := perform b [(true, .illegalCmd)] (pureAnswer b 0 0)

/-- The machine takes the block's reply: the block after the command, and the response on the output ports. -/
def deliver (s : State) (reply : Reply) : Host.Outcome State Fault Refusal :=
  .next { s with block := reply.block, response := some reply.response }

/-- An illegal command word in the machine. -/
def execIllegal (s : State) : Host.Outcome State Fault Refusal := deliver s (replyIllegal s.block)

/-! ## The tests that several commands share (60_exceptions.md R151) -/

/-- `p >= W` is BAD_INDEX: rotates, shifts, single-bit and section masks, BITSWAP. -/
def indexTests (ws : Width) (p : Nat) : List (Bool × FaultCause) :=
  [(decide (ws.bits ≤ p), .badIndex)]

/-- The tests of DEC, DECN, ENCE, ENCF, ENCN (43_field_extract.md R103, 44_field_insert.md R111). -/
def fieldTests (ws : Width) (p : Nat) (m : Word ws.bits) : List (Bool × FaultCause) :=
  [(decide (ws.bits ≤ p), .badIndex),
   (decide (m = 0), .zeroMask),
   (decide (ws.bits < p + popcount m), .badCount)]

/-- The tests of HENC, HENCN, HDEC, HDECN (45_bitfield_encoder_fsm.md R125, R132). -/
def encoderTests (ws : Width) (cur : Nat) (m : Word ws.bits) : List (Bool × FaultCause) :=
  [(decide (m = 0), .zeroMask),
   (decide (ws.bits < cur + popcount m), .cursorOverflow)]

/-! ## Host inputs -/

/-- The host presents a command with operand values `ops`; `rest` is what it presents afterwards. -/
def acceptCommand (ops : Operands) (rest : List HostInput) (s : State) : State :=
  { s with operands := ops, pending := rest }

/-- A reset input: `H`, `CUR` and `FLT` take their reset values, and the outputs are without value again
(70_reset_and_hazards.md R170, R171). -/
def acceptReset (rest : List HostInput) (s : State) : State :=
  { s with block := Block.reset, response := none, pending := rest }

/-- The host input that carries a command word numbered as spec/opcode_table.json numbers it, with the operand values
that stand on the ports. -/
def wordInput (nbits w : Nat) (s : State) : HostInput := .command (cmdWordOf nbits w) s.operands

end Sys2Proof.Machine
end

