-- ==== Sys2Proof/Machine/AuxWordOps.lean ====
section
/-! DEFINITION. AuxWordOps.lean: the auxiliary word operations BITREV, BITSWAP, SEXT (spec 46_aux_word_ops.md). -/

namespace Sys2Proof.Machine

/-- The mirrored word (R141). -/
def bitReverse {w : Nat} (v : Word w) : Word w := wordOfBits w fun i => v.getLsbD (w - 1 - i)

/-- The word with its low `p + 1` bits mirrored and the others kept (R142). -/
def bitSwap {w : Nat} (v : Word w) (p : Nat) : Word w :=
  wordOfBits w fun i => if i ≤ p then v.getLsbD (p - i) else v.getLsbD i

/-- The low `p` bits sign-extended to the word (R144). -/
def signExtend {w : Nat} (v : Word w) (p : Nat) : Word w :=
  if (v &&& maskW w p).getLsbD (p - 1) then (v &&& maskW w p) ||| notW (maskW w p)
  else v &&& maskW w p

/-- BITREV (R141). -/
def replyBitrev (ws : Width) (ops : Operands) (b : Block) : Reply :=
  perform b [] (pureAnswer b (zext64 (bitReverse (opA ws ops))) 0)

/-- BITREV in the machine. -/
def execBitrev (ws : Width) (s : State) : Host.Outcome State Fault Refusal :=
  deliver s (replyBitrev ws s.operands s.block)

/-- BITSWAP (R142). -/
def replyBitswap (ws : Width) (p : Nat) (ops : Operands) (b : Block) : Reply :=
  perform b (indexTests ws p) (pureAnswer b (zext64 (bitSwap (opA ws ops) p)) 0)

/-- BITSWAP in the machine. -/
def execBitswap (ws : Width) (p : Nat) (s : State) : Host.Outcome State Fault Refusal :=
  deliver s (replyBitswap ws p s.operands s.block)

/-- SEXT (R144). -/
def replySext (ws : Width) (p : Nat) (ops : Operands) (b : Block) : Reply :=
  perform b [(decide (p = 0), .badCount), (decide (ws.bits < p), .badCount)]
    (pureAnswer b (zext64 (signExtend (opA ws ops) p)) 0)

/-- SEXT in the machine. -/
def execSext (ws : Width) (p : Nat) (s : State) : Host.Outcome State Fault Refusal :=
  deliver s (replySext ws p s.operands s.block)

end Sys2Proof.Machine
end

