-- ==== Sys2Proof/Machine/BarrelShifter.lean ====
section
/-! DEFINITION. BarrelShifter.lean: barrel_shifter, ROL, ROR, SHL, SHR (spec 41_barrel_shifter.md). -/

namespace Sys2Proof.Machine

/-- Rotate left by `p` (R76). -/
def rotateLeft {w : Nat} (v : Word w) (p : Nat) : Word w :=
  if p = 0 then v else shlW v p ||| shrW v (w - p)

/-- Rotate right by `p` (R77). -/
def rotateRight {w : Nat} (v : Word w) (p : Nat) : Word w :=
  if p = 0 then v else shrW v p ||| shlW v (w - p)

/-- ROL (R76). -/
def replyRol (ws : Width) (p : Nat) (ops : Operands) (b : Block) : Reply :=
  perform b (indexTests ws p) (pureAnswer b (zext64 (rotateLeft (opA ws ops) p)) 0)

/-- ROL in the machine. -/
def execRol (ws : Width) (p : Nat) (s : State) : Host.Outcome State Fault Refusal :=
  deliver s (replyRol ws p s.operands s.block)

/-- ROR (R77). -/
def replyRor (ws : Width) (p : Nat) (ops : Operands) (b : Block) : Reply :=
  perform b (indexTests ws p) (pureAnswer b (zext64 (rotateRight (opA ws ops) p)) 0)

/-- ROR in the machine. -/
def execRor (ws : Width) (p : Nat) (s : State) : Host.Outcome State Fault Refusal :=
  deliver s (replyRor ws p s.operands s.block)

/-- SHL (R78). -/
def replyShl (ws : Width) (p : Nat) (ops : Operands) (b : Block) : Reply :=
  perform b (indexTests ws p) (pureAnswer b (zext64 (shlW (opA ws ops) p)) 0)

/-- SHL in the machine. -/
def execShl (ws : Width) (p : Nat) (s : State) : Host.Outcome State Fault Refusal :=
  deliver s (replyShl ws p s.operands s.block)

/-- SHR (R79). -/
def replyShr (ws : Width) (p : Nat) (ops : Operands) (b : Block) : Reply :=
  perform b (indexTests ws p) (pureAnswer b (zext64 (shrW (opA ws ops) p)) 0)

/-- SHR in the machine. -/
def execShr (ws : Width) (p : Nat) (s : State) : Host.Outcome State Fault Refusal :=
  deliver s (replyShr ws p s.operands s.block)

end Sys2Proof.Machine
end

