-- ==== Sys2Proof/Machine/BitCounter.lean ====
section
/-! DEFINITION. BitCounter.lean: bit_counter, BITCNT (spec 40_bit_counter.md). -/

namespace Sys2Proof.Machine

/-- BITCNT (R71): the population count of `a`. -/
def replyBitcnt (ws : Width) (ops : Operands) (b : Block) : Reply :=
  perform b [] (pureAnswer b (countR (popcount (opA ws ops))) 0)

/-- BITCNT in the machine. -/
def execBitcnt (ws : Width) (s : State) : Host.Outcome State Fault Refusal :=
  deliver s (replyBitcnt ws s.operands s.block)

end Sys2Proof.Machine
end

