-- ==== Sys2Proof/Config.lean ====
section
/-! DEFINITION. Config.lean: the one open parameter of the spec (92_eei_decisions.md, "Open parameters of a model").
The value the machine uses is `Sys2Proof.Machine.config` in Sys2Proof/Machine/BitMaskGen.lean. No rule leaves a value free,
so there is no opaque constant here. -/

namespace Sys2Proof

/-- `ENUMBITS_ROUNDING` (42_bit_mask_gen.md R92, 92_eei_decisions.md D19). -/
inductive EnumBitsRounding where
  /-- The document's printed formula `⌈log2(maxValue-1)⌉ + 1`, the default. -/
  | ceil
  /-- The minimal width `bitlen(maxValue-1)`. -/
  | floor
deriving DecidableEq, Repr

/-- What an implementation of the block fixes. -/
structure Config where
  enumBitsRounding : EnumBitsRounding
deriving DecidableEq, Repr

end Sys2Proof
end

