-- ==== Sys2Proof/Machine/BitMaskGen.lean ====
section
/-! DEFINITION. BitMaskGen.lean: bit_mask_gen, MASKN, VEMASKLE, VEMASKBE, SECMASKLE, SECMASKBE, NONETRAITS, ENUMBITS
(spec 42_bit_mask_gen.md). -/

namespace Sys2Proof.Machine

/-- The machine's configuration: `ENUMBITS_ROUNDING = ceil`, the default of R92 (notes/assumptions/7.md). -/
def config : Config := { enumBitsRounding := .ceil }

/-- MASKN (R86). -/
def replyMaskn (ws : Width) (p : Nat) (b : Block) : Reply :=
  perform b [(decide (ws.bits < p), .badCount)] (pureAnswer b (zext64 (maskW ws.bits p)) 0)

/-- MASKN in the machine. -/
def execMaskn (ws : Width) (p : Nat) (s : State) : Host.Outcome State Fault Refusal :=
  deliver s (replyMaskn ws p s.block)

/-- VEMASKLE (R87): `2^p`. -/
def replyVemaskle (ws : Width) (p : Nat) (b : Block) : Reply :=
  perform b (indexTests ws p) (pureAnswer b (zext64 (BitVec.ofNat ws.bits (2 ^ p))) 0)

/-- VEMASKLE in the machine. -/
def execVemaskle (ws : Width) (p : Nat) (s : State) : Host.Outcome State Fault Refusal :=
  deliver s (replyVemaskle ws p s.block)

/-- VEMASKBE (R88): `2^(W - 1 - p)`. -/
def replyVemaskbe (ws : Width) (p : Nat) (b : Block) : Reply :=
  perform b (indexTests ws p) (pureAnswer b (zext64 (BitVec.ofNat ws.bits (2 ^ (ws.bits - 1 - p)))) 0)

/-- VEMASKBE in the machine. -/
def execVemaskbe (ws : Width) (p : Nat) (s : State) : Host.Outcome State Fault Refusal :=
  deliver s (replyVemaskbe ws p s.block)

/-- SECMASKLE (R89): `shl_W(ones_W, p)`. -/
def replySecmaskle (ws : Width) (p : Nat) (b : Block) : Reply :=
  perform b (indexTests ws p) (pureAnswer b (zext64 (shlW (ones ws.bits) p)) 0)

/-- SECMASKLE in the machine. -/
def execSecmaskle (ws : Width) (p : Nat) (s : State) : Host.Outcome State Fault Refusal :=
  deliver s (replySecmaskle ws p s.block)

/-- SECMASKBE (R90): `shr(ones_W, p)`. -/
def replySecmaskbe (ws : Width) (p : Nat) (b : Block) : Reply :=
  perform b (indexTests ws p) (pureAnswer b (zext64 (shrW (ones ws.bits) p)) 0)

/-- SECMASKBE in the machine. -/
def execSecmaskbe (ws : Width) (p : Nat) (s : State) : Host.Outcome State Fault Refusal :=
  deliver s (replySecmaskbe ws p s.block)

/-- NONETRAITS (R91): the mask on `R` and the bit count `bitlen(a)` on `R2`. -/
def replyNonetraits (ws : Width) (ops : Operands) (b : Block) : Reply :=
  perform b [(decide (opA ws ops = 0), .badArg)]
    (pureAnswer b (zext64 (maskW ws.bits (bitlen (opA ws ops).toNat))) (bitlen (opA ws ops).toNat))

/-- NONETRAITS in the machine. -/
def execNonetraits (ws : Width) (s : State) : Host.Outcome State Fault Refusal :=
  deliver s (replyNonetraits ws s.operands s.block)

/-- The bit count of an enumeration under either rounding (R92). -/
def enumBits (rounding : EnumBitsRounding) (a : Nat) : Nat :=
  match rounding with
  | .ceil => bitlen (a - 2) + 1
  | .floor => bitlen (a - 1)

/-- ENUMBITS (R92). -/
def replyEnumbits (ws : Width) (ops : Operands) (b : Block) : Reply :=
  perform b [(decide ((opA ws ops).toNat ≤ 1), .badArg)]
    (pureAnswer b (countR (enumBits config.enumBitsRounding (opA ws ops).toNat)) 0)

/-- ENUMBITS in the machine. -/
def execEnumbits (ws : Width) (s : State) : Host.Outcome State Fault Refusal :=
  deliver s (replyEnumbits ws s.operands s.block)

end Sys2Proof.Machine
end

