-- ==== Sys2Proof/Machine/FieldExtract.lean ====
section
/-! DEFINITION. FieldExtract.lean: field_extract, EXTR, EXTV, DEC, DECN (spec 43_field_extract.md). -/

namespace Sys2Proof.Machine

/-- EXTR (R101): bits `q` down to `p`, `p` = lo, `q` = hi. -/
def replyExtr (ws : Width) (p q : Nat) (ops : Operands) (b : Block) : Reply :=
  perform b [(decide (ws.bits ≤ q), .badIndex), (decide (q < p), .badIndex)]
    (pureAnswer b (zext64 (extractField (opA ws ops) (maskW ws.bits (q - p + 1)) p)) 0)

/-- EXTR in the machine. -/
def execExtr (ws : Width) (p q : Nat) (s : State) : Host.Outcome State Fault Refusal :=
  deliver s (replyExtr ws p q s.operands s.block)

/-- EXTV (R102): `q` bits from bit `p`, `p` = idx, `q` = count. -/
def replyExtv (ws : Width) (p q : Nat) (ops : Operands) (b : Block) : Reply :=
  perform b
    [(decide (ws.bits ≤ p), .badIndex), (decide (q = 0), .badCount), (decide (ws.bits < p + q), .badCount)]
    (pureAnswer b (zext64 (extractField (opA ws ops) (maskW ws.bits q) p)) 0)

/-- EXTV in the machine. -/
def execExtv (ws : Width) (p q : Nat) (s : State) : Host.Outcome State Fault Refusal :=
  deliver s (replyExtv ws p q s.operands s.block)

/-- DEC (R103). -/
def replyDec (ws : Width) (p : Nat) (ops : Operands) (b : Block) : Reply :=
  perform b (fieldTests ws p (opM ws ops))
    (pureAnswer b (zext64 (extractField (opA ws ops) (opM ws ops) p)) (p + popcount (opM ws ops)))

/-- DEC in the machine. -/
def execDec (ws : Width) (p : Nat) (s : State) : Host.Outcome State Fault Refusal :=
  deliver s (replyDec ws p s.operands s.block)

/-- DECN (R104). -/
def replyDecn (ws : Width) (p : Nat) (ops : Operands) (b : Block) : Reply :=
  perform b (fieldTests ws p (opM ws ops))
    (pureAnswer b (zext64 (noneableValue (extractField (opA ws ops) (opM ws ops) p))) (p + popcount (opM ws ops)))

/-- DECN in the machine. -/
def execDecn (ws : Width) (p : Nat) (s : State) : Host.Outcome State Fault Refusal :=
  deliver s (replyDecn ws p s.operands s.block)

end Sys2Proof.Machine
end

