-- ==== Sys2Proof/Machine/FieldInsert.lean ====
section
/-! DEFINITION. FieldInsert.lean: field_insert, ENCE, ENCF, ENCN (spec 44_field_insert.md). -/

namespace Sys2Proof.Machine

/-- ENCE (R111), also plain ENC (R114): clear, then set. -/
def replyEnce (ws : Width) (p : Nat) (ops : Operands) (b : Block) : Reply :=
  perform b (fieldTests ws p (opM ws ops))
    (pureAnswer b (zext64 (insertField (opA ws ops) (opB ws ops) (opM ws ops) p)) (p + popcount (opM ws ops)))

/-- ENCE in the machine. -/
def execEnce (ws : Width) (p : Nat) (s : State) : Host.Outcome State Fault Refusal :=
  deliver s (replyEnce ws p s.operands s.block)

/-- ENCF (R112): OR only. -/
def replyEncf (ws : Width) (p : Nat) (ops : Operands) (b : Block) : Reply :=
  perform b (fieldTests ws p (opM ws ops))
    (pureAnswer b (zext64 (orField (opA ws ops) (opB ws ops) (opM ws ops) p)) (p + popcount (opM ws ops)))

/-- ENCF in the machine. -/
def execEncf (ws : Width) (p : Nat) (s : State) : Host.Outcome State Fault Refusal :=
  deliver s (replyEncf ws p s.operands s.block)

/-- ENCN (R113): the stored code of the value, clear-then-set. -/
def replyEncn (ws : Width) (p : Nat) (ops : Operands) (b : Block) : Reply :=
  perform b (fieldTests ws p (opM ws ops))
    (pureAnswer b (zext64 (insertField (opA ws ops) (noneableCode (opB ws ops)) (opM ws ops) p))
      (p + popcount (opM ws ops)))

/-- ENCN in the machine. -/
def execEncn (ws : Width) (p : Nat) (s : State) : Host.Outcome State Fault Refusal :=
  deliver s (replyEncn ws p s.operands s.block)

end Sys2Proof.Machine
end

