-- ==== Sys2Proof/Machine/HandleEncoder.lean ====
section
/-! DEFINITION. HandleEncoder.lean: bitfield_encoder_fsm, HINIT, HSEED, HENC, HENCN, HDEC, HDECN, HGET
(spec 45_bitfield_encoder_fsm.md). -/

namespace Sys2Proof.Machine

/-- The cursor after an encoder command with mask `m` completes (R121). -/
def advancedCursor (ws : Width) (ops : Operands) (b : Block) : Nat := cursor b + popcount (opM ws ops)

/-- HINIT (R123). -/
def replyHinit (b : Block) : Reply :=
  perform b [] (encoderAnswer 0 0 0 0)

/-- HINIT in the machine. -/
def execHinit (s : State) : Host.Outcome State Fault Refusal :=
  deliver s (replyHinit s.block)

/-- HSEED (R124): for `W = 32` the upper half of `H` becomes 0. -/
def replyHseed (ws : Width) (ops : Operands) (b : Block) : Reply :=
  perform b [] (encoderAnswer 0 0 (zext64 (opA ws ops)) 0)

/-- HSEED in the machine. -/
def execHseed (ws : Width) (s : State) : Host.Outcome State Fault Refusal :=
  deliver s (replyHseed ws s.operands s.block)

/-- HENC (R125). -/
def replyHenc (ws : Width) (ops : Operands) (b : Block) : Reply :=
  perform b (encoderTests ws (cursor b) (opM ws ops))
    (encoderAnswer 0 (advancedCursor ws ops b)
      (handleWithLow ws b (insertField (handleLow ws b) (opB ws ops) (opM ws ops) (cursor b)))
      (advancedCursor ws ops b))

/-- HENC in the machine. -/
def execHenc (ws : Width) (s : State) : Host.Outcome State Fault Refusal :=
  deliver s (replyHenc ws s.operands s.block)

/-- HENCN (R126). -/
def replyHencn (ws : Width) (ops : Operands) (b : Block) : Reply :=
  perform b (encoderTests ws (cursor b) (opM ws ops))
    (encoderAnswer 0 (advancedCursor ws ops b)
      (handleWithLow ws b (insertField (handleLow ws b) (noneableCode (opB ws ops)) (opM ws ops) (cursor b)))
      (advancedCursor ws ops b))

/-- HENCN in the machine. -/
def execHencn (ws : Width) (s : State) : Host.Outcome State Fault Refusal :=
  deliver s (replyHencn ws s.operands s.block)

/-- HDEC (R127). -/
def replyHdec (ws : Width) (ops : Operands) (b : Block) : Reply :=
  perform b (encoderTests ws (cursor b) (opM ws ops))
    (encoderAnswer (zext64 (extractField (handleLow ws b) (opM ws ops) (cursor b))) (advancedCursor ws ops b)
      b.h (advancedCursor ws ops b))

/-- HDEC in the machine. -/
def execHdec (ws : Width) (s : State) : Host.Outcome State Fault Refusal :=
  deliver s (replyHdec ws s.operands s.block)

/-- HDECN (R128). -/
def replyHdecn (ws : Width) (ops : Operands) (b : Block) : Reply :=
  perform b (encoderTests ws (cursor b) (opM ws ops))
    (encoderAnswer (zext64 (noneableValue (extractField (handleLow ws b) (opM ws ops) (cursor b))))
      (advancedCursor ws ops b) b.h (advancedCursor ws ops b))

/-- HDECN in the machine. -/
def execHdecn (ws : Width) (s : State) : Host.Outcome State Fault Refusal :=
  deliver s (replyHdecn ws s.operands s.block)

/-- HGET (R129). -/
def replyHget (ws : Width) (b : Block) : Reply :=
  perform b [] (pureAnswer b (zext64 (handleLow ws b)) (cursor b))

/-- HGET in the machine. -/
def execHget (ws : Width) (s : State) : Host.Outcome State Fault Refusal :=
  deliver s (replyHget ws s.block)

end Sys2Proof.Machine
end

