-- ==== Sys2Proof/Machine/Dispatch.lean ====
section
/-! DEFINITION. Dispatch.lean: each command's meaning, one arm per constructor of Instr. -/

namespace Sys2Proof.Machine

def exec (i : Instr) (s : State) : Host.Outcome State Fault Refusal :=
  match i with
  | .bitcnt ws => Sys2Proof.Machine.execBitcnt ws s
  | .rol ws p => Sys2Proof.Machine.execRol ws p s
  | .ror ws p => Sys2Proof.Machine.execRor ws p s
  | .shl ws p => Sys2Proof.Machine.execShl ws p s
  | .shr ws p => Sys2Proof.Machine.execShr ws p s
  | .maskn ws p => Sys2Proof.Machine.execMaskn ws p s
  | .vemaskle ws p => Sys2Proof.Machine.execVemaskle ws p s
  | .vemaskbe ws p => Sys2Proof.Machine.execVemaskbe ws p s
  | .secmaskle ws p => Sys2Proof.Machine.execSecmaskle ws p s
  | .secmaskbe ws p => Sys2Proof.Machine.execSecmaskbe ws p s
  | .nonetraits ws => Sys2Proof.Machine.execNonetraits ws s
  | .enumbits ws => Sys2Proof.Machine.execEnumbits ws s
  | .extr ws p q => Sys2Proof.Machine.execExtr ws p q s
  | .extv ws p q => Sys2Proof.Machine.execExtv ws p q s
  | .dec ws p => Sys2Proof.Machine.execDec ws p s
  | .decn ws p => Sys2Proof.Machine.execDecn ws p s
  | .ence ws p => Sys2Proof.Machine.execEnce ws p s
  | .encf ws p => Sys2Proof.Machine.execEncf ws p s
  | .encn ws p => Sys2Proof.Machine.execEncn ws p s
  | .hinit => Sys2Proof.Machine.execHinit s
  | .hseed ws => Sys2Proof.Machine.execHseed ws s
  | .henc ws => Sys2Proof.Machine.execHenc ws s
  | .hencn ws => Sys2Proof.Machine.execHencn ws s
  | .hdec ws => Sys2Proof.Machine.execHdec ws s
  | .hdecn ws => Sys2Proof.Machine.execHdecn ws s
  | .hget ws => Sys2Proof.Machine.execHget ws s
  | .bitrev ws => Sys2Proof.Machine.execBitrev ws s
  | .bitswap ws p => Sys2Proof.Machine.execBitswap ws p s
  | .sext ws p => Sys2Proof.Machine.execSext ws p s

end Sys2Proof.Machine
end

