-- ==== Sys2Proof/Machine/Answer.lean ====
section
/-! DEFINITION. Answer.lean: the answer to one presented command word (60_exceptions.md R154). -/

namespace Sys2Proof.Machine

/-- The block answers a command word whose operand values stand on the ports (60_exceptions.md R154). The lock test stands
in `perform`, which every meaning and `execIllegal` begin with. -/
def answerWord (cmd : CmdWord) (s : State) : Host.Outcome State Fault Refusal :=
  match decode cmd with
  | .ok i => exec i s
  | .error _ => execIllegal s

end Sys2Proof.Machine
end

