-- ==== Sys2Proof/Machine/Step.lean ====
section
/-! DEFINITION. Step.lean: one step of the block: it takes the next input of the host and answers it (00_scope.md R12). -/

namespace Sys2Proof.Machine

/-- One step: the next host input is a reset or a command. With no input there is no step (00_scope.md R12). -/
def step (s : State) : Host.Outcome State Fault Refusal :=
  match s.pending with
  | [] => .fault .noCommand
  | .reset :: rest => .next (acceptReset rest s)
  | .command cmd ops :: rest => answerWord cmd (acceptCommand ops rest s)

/-- `s` with the command word numbered `w` as the next input of the host, and the operand values that stand on the ports.
The rest of what the host presents follows it. -/
def State.withFetchWord (s : State) (nbits w : Nat) : State :=
  { s with pending := wordInput nbits w s :: s.pending }

end Sys2Proof.Machine
end

