-- ==== Sys2Proof/Machine/Assembler.lean ====
section
/-! DEFINITION. Assembler.lean: the spelling of commands and responses (30_encoding.md R62) and the two pseudo-instructions
(R63). Nothing in `step` depends on this file. -/

namespace Sys2Proof.Machine

/-! ## Pseudo-instructions (R63) -/

/-- `ENC.W p` is `ENCE.W p` (R63, 44_field_insert.md R114). -/
def pseudoEnc (ws : Width) (p : Nat) : Instr := .ence ws p

/-- `HSKIP.W n`, for `1 ≤ n ≤ W`, is `HDEC.W C=mask(n)` (R63, 45_bitfield_encoder_fsm.md R135). -/
def pseudoHskip (ws : Width) (n : Nat) : HostInput :=
  .command (encode (.hdec ws)) { a := 0, b := 0, c := maskW 64 n }

/-! ## Spelling (R62) -/

/-- The mnemonic of a command (R55). -/
def mnemonicOf : Instr → String
  | .bitcnt _ => "BITCNT"
  | .rol _ _ => "ROL"
  | .ror _ _ => "ROR"
  | .shl _ _ => "SHL"
  | .shr _ _ => "SHR"
  | .maskn _ _ => "MASKN"
  | .vemaskle _ _ => "VEMASKLE"
  | .vemaskbe _ _ => "VEMASKBE"
  | .secmaskle _ _ => "SECMASKLE"
  | .secmaskbe _ _ => "SECMASKBE"
  | .nonetraits _ => "NONETRAITS"
  | .enumbits _ => "ENUMBITS"
  | .extr _ _ _ => "EXTR"
  | .extv _ _ _ => "EXTV"
  | .dec _ _ => "DEC"
  | .decn _ _ => "DECN"
  | .ence _ _ => "ENCE"
  | .encf _ _ => "ENCF"
  | .encn _ _ => "ENCN"
  | .hinit => "HINIT"
  | .hseed _ => "HSEED"
  | .henc _ => "HENC"
  | .hencn _ => "HENCN"
  | .hdec _ => "HDEC"
  | .hdecn _ => "HDECN"
  | .hget _ => "HGET"
  | .bitrev _ => "BITREV"
  | .bitswap _ _ => "BITSWAP"
  | .sext _ _ => "SEXT"

/-- The width suffix and the small operands of a command as the assembler writes them (R52, R62). -/
def operandText : Instr → String
  | .bitcnt ws | .nonetraits ws | .enumbits ws | .bitrev ws => "." ++ toString ws.bits
  | .hseed ws | .henc ws | .hencn ws | .hdec ws | .hdecn ws | .hget ws => "." ++ toString ws.bits
  | .extr ws p q | .extv ws p q => "." ++ toString ws.bits ++ " " ++ toString p ++ ", " ++ toString q
  | .rol ws p | .ror ws p | .shl ws p | .shr ws p | .maskn ws p | .vemaskle ws p | .vemaskbe ws p
  | .secmaskle ws p | .secmaskbe ws p | .dec ws p | .decn ws p | .ence ws p | .encf ws p | .encn ws p
  | .bitswap ws p | .sext ws p => "." ++ toString ws.bits ++ " " ++ toString p
  | .hinit => ""

/-- A number as the assembler writes operand values and results: `0x` and hexadecimal digits. -/
def hexText (n : Nat) : String := "0x" ++ String.ofList ((Nat.toDigits 16 n).map Char.toUpper)

/-- A command with its operand values (R62). -/
def commandText (i : Instr) (ops : Operands) : String :=
  mnemonicOf i ++ operandText i ++ " A=" ++ hexText ops.a.toNat ++ " B=" ++ hexText ops.b.toNat ++
    " C=" ++ hexText ops.c.toNat

/-- The name of a fault cause (60_exceptions.md R150). -/
def causeText : FaultCause → String
  | .illegalCmd => "ILLEGAL_CMD"
  | .badIndex => "BAD_INDEX"
  | .zeroMask => "ZERO_MASK"
  | .badCount => "BAD_COUNT"
  | .cursorOverflow => "CURSOR_OVERFLOW"
  | .badArg => "BAD_ARG"

/-- A response (R62). -/
def responseText : Response → String
  | .ok r r2 => "-> ST=OK, R=" ++ hexText r.toNat ++ ", R2=" ++ toString r2.toNat
  | .fault cause => "-> ST=" ++ causeText cause
  | .locked => "-> ST=LOCKED"

end Sys2Proof.Machine
end

