-- ==== Sys2Proof/Machine/BlockMachine.lean ====
section
/-! DEFINITION. BlockMachine.lean: the block as the spec describes it. Its state is the product of `H`, `CUR` and `FLT` and
nothing more (10_state.md R20). The command word, the operand values and a reset are inputs of a step (R31). -/

namespace Sys2Proof.Machine

/-- The block answers a decoded command. -/
def replyTo (i : Instr) (ops : Operands) (b : Block) : Reply :=
  match i with
  | .bitcnt ws => replyBitcnt ws ops b
  | .rol ws p => replyRol ws p ops b
  | .ror ws p => replyRor ws p ops b
  | .shl ws p => replyShl ws p ops b
  | .shr ws p => replyShr ws p ops b
  | .maskn ws p => replyMaskn ws p b
  | .vemaskle ws p => replyVemaskle ws p b
  | .vemaskbe ws p => replyVemaskbe ws p b
  | .secmaskle ws p => replySecmaskle ws p b
  | .secmaskbe ws p => replySecmaskbe ws p b
  | .nonetraits ws => replyNonetraits ws ops b
  | .enumbits ws => replyEnumbits ws ops b
  | .extr ws p q => replyExtr ws p q ops b
  | .extv ws p q => replyExtv ws p q ops b
  | .dec ws p => replyDec ws p ops b
  | .decn ws p => replyDecn ws p ops b
  | .ence ws p => replyEnce ws p ops b
  | .encf ws p => replyEncf ws p ops b
  | .encn ws p => replyEncn ws p ops b
  | .hinit => replyHinit b
  | .hseed ws => replyHseed ws ops b
  | .henc ws => replyHenc ws ops b
  | .hencn ws => replyHencn ws ops b
  | .hdec ws => replyHdec ws ops b
  | .hdecn ws => replyHdecn ws ops b
  | .hget ws => replyHget ws b
  | .bitrev ws => replyBitrev ws ops b
  | .bitswap ws p => replyBitswap ws p ops b
  | .sext ws p => replySext ws p ops b

/-- The block answers a command word, in the order of 60_exceptions.md R154: lock test, decoding, the command. -/
def replyToWord (cmd : CmdWord) (ops : Operands) (b : Block) : Reply :=
  if locked b then answerLocked b
  else
    match decode cmd with
    | .ok i => replyTo i ops b
    | .error _ => raiseFault .illegalCmd b

/-- One step of the block on one input of the host: the response, where the input is a command, and the state after it
(00_scope.md R12, 70_reset_and_hazards.md R170). -/
def blockStep (x : HostInput) (b : Block) : Option Response × Block :=
  match x with
  | .reset => (none, Block.reset)
  | .command cmd ops => (some (replyToWord cmd ops b).response, (replyToWord cmd ops b).block)

/-- A run of the block on a list of inputs: the responses in order, and the state at its end (70_reset_and_hazards.md
R184). It never stops early. -/
def blockRun : List HostInput → Block → List Response × Block
  | [], b => ([], b)
  | x :: xs, b =>
    ((blockStep x b).1.toList ++ (blockRun xs (blockStep x b).2).1, (blockRun xs (blockStep x b).2).2)

end Sys2Proof.Machine
end

