-- ==== Sys2Proof/Safety.lean ====
section
/-! DEFINITION. Safety.lean: what a legal state and a good run are, and runs of host inputs, in the terms the statements use. -/

namespace Sys2Proof.Machine

/-- The state invariant of 10_state.md R23: `0 <= CUR <= 64` and `0 <= FLT <= 6`. -/
abbrev StateInvariant (s : State) : Prop := s.block.cur.toNat ≤ 64 ∧ s.block.flt.toNat ≤ 6

/-- The last response and the latch agree: OK (or none yet) when `FLT` is 0, a fault when `FLT` holds its code, LOCKED only
while `FLT` is not 0 (60_exceptions.md R153, R155). -/
def latchAgrees (s : State) : Bool :=
  match s.response with
  | none => decide (s.block.flt = 0)
  | some (.ok _ _) => decide (s.block.flt = 0)
  | some (.fault cause) => decide (s.block.flt = faultCode cause)
  | some .locked => decide (s.block.flt ≠ 0)

/-- A run that ends in this state went wrong (70_reset_and_hazards.md R184). -/
abbrev WentWrong (s : State) : Prop := s.block.flt ≠ 0

/-- The host presents one more input, and the block takes its next step on it. -/
def serve (x : HostInput) (s : State) : Host.Outcome State Fault Refusal :=
  step { s with pending := x :: s.pending }

/-- The host presents the inputs one after the other, each after the response to the one before (00_scope.md R12).
The responses in order (a reset has none) and the final state, or `none` if a step stops. -/
def serveAll : List HostInput → State → Option (List Response × State)
  | [], s => some ([], s)
  | x :: xs, s =>
    match serve x s with
    | .next t =>
      match serveAll xs t with
      | some (rs, u) => some (t.response.toList ++ rs, u)
      | none => none
    | .fault _ => none
    | .refused _ => none

/-- The input is a command, not a reset. -/
def isCommand : HostInput → Bool
  | .reset => false
  | .command _ _ => true

/-- `R` of a response, where it has one. -/
def resultOfResponse : Response → Option Port
  | .ok r _ => some r
  | .fault _ => none
  | .locked => none

/-- `R` and `R2` of a command that completes from the reset state with operand values `ops`; `none` if it faults. Pure
commands read no other state (10_state.md R20). -/
def pureResult (i : Instr) (ops : Operands) : Option (Port × SmallResult) :=
  match exec i { State.reset with operands := ops } with
  | .next t =>
    match t.response with
    | some (.ok r r2) => some (r, r2)
    | _ => none
  | _ => none

/-- `R` of a command with operands `A`, `B`, `C` from the reset state; `none` if it faults. -/
def pureR (i : Instr) (a b c : Port) : Option Port := (pureResult i { a := a, b := b, c := c }).map Prod.fst

/-- The low `W` bits of a port value, on 64 bits (00_scope.md R11). -/
def lowBits (ws : Width) (v : Port) : Port := BitVec.ofNat 64 (v.toNat % 2 ^ ws.bits)

/-- The number of 1 bits among the low `W` bits: the sum of `v[i]` (40_bit_counter.md R70). -/
def onesCount (ws : Width) (v : Port) : Nat := ((List.range ws.bits).map fun i => (v.getLsbD i).toNat).sum

/-! ## Which inputs a command reads (30_encoding.md R61) -/

/-- The width of a command; HINIT has none (R56). -/
def widthOf : Instr → Option Width
  | .bitcnt ws | .nonetraits ws | .enumbits ws | .bitrev ws => some ws
  | .hseed ws | .henc ws | .hencn ws | .hdec ws | .hdecn ws | .hget ws => some ws
  | .extr ws _ _ | .extv ws _ _ => some ws
  | .rol ws _ | .ror ws _ | .shl ws _ | .shr ws _ | .maskn ws _ | .vemaskle ws _ | .vemaskbe ws _
  | .secmaskle ws _ | .secmaskbe ws _ | .dec ws _ | .decn ws _ | .ence ws _ | .encf ws _ | .encn ws _
  | .bitswap ws _ | .sext ws _ => some ws
  | .hinit => none

/-- The command reads port `A`. -/
def readsA : Instr → Bool
  | .bitcnt _ | .nonetraits _ | .enumbits _ | .bitrev _ | .hseed _ => true
  | .rol _ _ | .ror _ _ | .shl _ _ | .shr _ _ | .extr _ _ _ | .extv _ _ _ => true
  | .dec _ _ | .decn _ _ | .ence _ _ | .encf _ _ | .encn _ _ | .bitswap _ _ | .sext _ _ => true
  | .maskn _ _ | .vemaskle _ _ | .vemaskbe _ _ | .secmaskle _ _ | .secmaskbe _ _ => false
  | .hinit | .henc _ | .hencn _ | .hdec _ | .hdecn _ | .hget _ => false

/-- The command reads port `B`. -/
def readsB : Instr → Bool
  | .ence _ _ | .encf _ _ | .encn _ _ | .henc _ | .hencn _ => true
  | .bitcnt _ | .nonetraits _ | .enumbits _ | .bitrev _ | .hseed _ => false
  | .rol _ _ | .ror _ _ | .shl _ _ | .shr _ _ | .extr _ _ _ | .extv _ _ _ => false
  | .dec _ _ | .decn _ _ | .bitswap _ _ | .sext _ _ => false
  | .maskn _ _ | .vemaskle _ _ | .vemaskbe _ _ | .secmaskle _ _ | .secmaskbe _ _ => false
  | .hinit | .hdec _ | .hdecn _ | .hget _ => false

/-- The command reads port `C`. -/
def readsC : Instr → Bool
  | .dec _ _ | .decn _ _ | .ence _ _ | .encf _ _ | .encn _ _ => true
  | .henc _ | .hencn _ | .hdec _ | .hdecn _ => true
  | .bitcnt _ | .nonetraits _ | .enumbits _ | .bitrev _ | .hseed _ => false
  | .rol _ _ | .ror _ _ | .shl _ _ | .shr _ _ | .extr _ _ _ | .extv _ _ _ => false
  | .bitswap _ _ | .sext _ _ => false
  | .maskn _ _ | .vemaskle _ _ | .vemaskbe _ _ | .secmaskle _ _ | .secmaskbe _ _ => false
  | .hinit | .hget _ => false

/-- Two sets of operand values agree on every bit the command may look at: the low `W` bits of the ports it names
(00_scope.md R11). -/
def SameReadBits (i : Instr) (o o' : Operands) : Prop :=
  ∀ ws, widthOf i = some ws →
    (readsA i = true → lowBits ws o.a = lowBits ws o'.a) ∧
    (readsB i = true → lowBits ws o.b = lowBits ws o'.b) ∧
    (readsC i = true → lowBits ws o.c = lowBits ws o'.c)

/-- The command replaces the handle and restarts the cursor (45_bitfield_encoder_fsm.md R121). -/
def startsSession : Instr → Bool
  | .hinit | .hseed _ => true
  | _ => false

/-- The command advances the cursor by the population count of its mask (45_bitfield_encoder_fsm.md R121). -/
def advancesCursor : Instr → Bool
  | .henc _ | .hencn _ | .hdec _ | .hdecn _ => true
  | _ => false

/-- How far the command moves the cursor when it completes, a session start left aside. -/
def cursorAdvance (i : Instr) (ops : Operands) : Nat :=
  match widthOf i with
  | some ws => if advancesCursor i then onesCount ws ops.c else 0
  | none => 0

/-- The command writes `H` when it completes (10_state.md R20). -/
def writesHandle : Instr → Bool
  | .hinit | .hseed _ | .henc _ | .hencn _ => true
  | _ => false

/-- A command of a pure family: neither the handle nor the cursor is its business (10_state.md R20). -/
def isPure (i : Instr) : Bool :=
  match i with
  | .hget _ => false
  | _ => !startsSession i && !advancesCursor i

/-! ## Fields of a handle (45_bitfield_encoder_fsm.md R134) -/

/-- One field of a handle: its width, its value, and whether it is noneable. -/
structure Field where
  bits : Nat
  value : Port
  noneable : Bool
deriving DecidableEq, Repr

/-- The code the field stores in a handle of width `ws`. -/
def Field.code (ws : Width) (f : Field) : Nat :=
  if f.noneable then (f.value.toNat + 1) % 2 ^ ws.bits else f.value.toNat

/-- The field has at least one bit, its value is a word of width `ws`, and its code fits it. -/
def Field.fits (ws : Width) (f : Field) : Prop :=
  1 ≤ f.bits ∧ f.value.toNat < 2 ^ ws.bits ∧ f.code ws < 2 ^ f.bits

/-- The command that packs the field. -/
def Field.encodeInput (ws : Width) (f : Field) : HostInput :=
  .command (encode (if f.noneable then .hencn ws else .henc ws))
    { a := 0, b := f.value, c := BitVec.ofNat 64 (2 ^ f.bits - 1) }

/-- The command that reads the field back: the same width, mask and kind (70_reset_and_hazards.md R173). -/
def Field.decodeInput (ws : Width) (f : Field) : HostInput :=
  .command (encode (if f.noneable then .hdecn ws else .hdec ws))
    { a := 0, b := 0, c := BitVec.ofNat 64 (2 ^ f.bits - 1) }

/-- The number of bits of the fields together. -/
def totalBits (fs : List Field) : Nat := (fs.map (·.bits)).sum

/-- The packed word: the first field at the least significant end. -/
def packedWord (ws : Width) : List Field → Nat
  | [] => 0
  | f :: fs => f.code ws + 2 ^ f.bits * packedWord ws fs

end Sys2Proof.Machine
end

