-- ==== Sys2Proof/Certificates/Slice0/Obligations.lean ====
section
/-! DEFINITION. Obligations.lean: what is to be proved of the model, statement by statement. Each docstring names the rule
of the spec it formalises. A next state written `{ s with … }` says the frame: every other part of the state is as it was. -/

open Sys2Proof Sys2Proof.Machine

/-- State.reset has H = 0, CUR = 0, FLT = 0. When the next host input is a reset, step answers a next state whose block
is H = 0, CUR = 0, FLT = 0, whatever the state, locked or not. A step that clears FLT is a reset. (R170) -/
def Obligations.ResetRestoresTheInitialBlock : Prop :=
  State.reset.block = { h := 0, cur := 0, flt := 0 } ∧
  (∀ (s : State) (rest : List HostInput), s.pending = .reset :: rest →
    ∃ t, step s = .next t ∧ t.block = { h := 0, cur := 0, flt := 0 }) ∧
  (∀ s t : State, step s = .next t → s.block.flt ≠ 0 → t.block.flt = 0 → ∃ rest, s.pending = .reset :: rest)

/-- State.reset has CUR at most 64 and FLT at most 6, and its response and its latch agree. (rests on 10_state.md R23,
10_state.md R32) -/
def Obligations.ResetStateMeetsStateInvariant : Prop :=
  StateInvariant State.reset ∧ latchAgrees State.reset = true

/-- For every state that meets the invariant, whatever input the host presents, if step answers a next state then that
state meets the invariant; and the reset state meets it. (R23) -/
def Obligations.StepKeepsStateInvariant : Prop :=
  StateInvariant State.reset ∧
  ∀ s t : State, StateInvariant s → step s = .next t → StateInvariant t

/-- After any step from any state: an OK response (or, after a reset, none) means FLT = 0, a fault response means FLT
holds that fault's code, and a LOCKED response means FLT is not 0. A reset input leaves no response, the operand ports as
they were and the later inputs to come: this last part is the model's choice (notes/assumptions/3.md and 6.md). (rests on
10_state.md R24, 60_exceptions.md R153 and R155, 70_reset_and_hazards.md R171) -/
def Obligations.ResponseAgreesWithLatchAfterStep : Prop :=
  (∀ s t : State, step s = .next t → latchAgrees t = true) ∧
  (∀ (s : State) (rest : List HostInput), s.pending = .reset :: rest →
    step s = .next { s with block := { h := 0, cur := 0, flt := 0 }, response := none, pending := rest })

/-- For every command: from CUR at most 64 the cursor stays at most 64; after a completed HENC, HENCN, HDEC or HDECN
of width W the cursor is at most W and equals the old cursor plus the population count of the mask; after a fault or a
LOCKED answer it is the old cursor. A run of completed commands that starts no new session ends with CUR at the start
plus the sum of the population counts of the masks of its HENC, HENCN, HDEC and HDECN commands. (R130) -/
def Obligations.CursorStaysWithinWidth : Prop :=
  (∀ (i : Instr) (s t : State), s.block.cur.toNat ≤ 64 → exec i s = .next t →
    t.block.cur.toNat ≤ 64 ∧
    ((∀ r r2, t.response ≠ some (.ok r r2)) → t.block.cur = s.block.cur) ∧
    (∀ ws r r2, advancesCursor i = true → widthOf i = some ws → t.response = some (.ok r r2) →
      t.block.cur.toNat ≤ ws.bits ∧ t.block.cur.toNat = s.block.cur.toNat + onesCount ws s.operands.c)) ∧
  (∀ (cmds : List (Instr × Operands)) (s u : State) (rs : List Response),
    (∀ c ∈ cmds, c.1.wellFormed = true ∧ startsSession c.1 = false) → s.block.cur.toNat ≤ 64 →
    serveAll (cmds.map fun c => .command (encode c.1) c.2) s = some (rs, u) →
    (∀ x ∈ rs, statusOf x = 0) →
    u.block.cur.toNat = s.block.cur.toNat + (cmds.map fun c => cursorAdvance c.1 c.2).sum)

/-- A reset, a completed HINIT or HSEED leaves CUR = 0. Every other command leaves CUR as it was, but a completed
HENC, HENCN, HDEC or HDECN, which adds the population count of its mask, at least 1. (R121) -/
def Obligations.CursorMovesOnlyForwardInASession : Prop :=
  (∀ (s t : State) (rest : List HostInput), s.pending = .reset :: rest → step s = .next t → t.block.cur = 0) ∧
  (∀ (i : Instr) (s t : State) (r : Port) (r2 : SmallResult),
    exec i s = .next t → t.response = some (.ok r r2) →
    (startsSession i = true → t.block.cur = 0) ∧
    (∀ ws, advancesCursor i = true → widthOf i = some ws →
      1 ≤ onesCount ws s.operands.c ∧ t.block.cur.toNat = s.block.cur.toNat + onesCount ws s.operands.c) ∧
    (startsSession i = false → advancesCursor i = false → t.block.cur = s.block.cur))

/-- For every well-formed command, with every operand at every value its fields admit, decode of its command word is
that command. (rests on 30_encoding.md R51, 30_encoding.md R55, 30_encoding.md R60) -/
def Obligations.DecodeOfEncodeIsTheCommand : Prop :=
  ∀ i : Instr, i.wellFormed = true → decode (encode i) = .ok i

/-- For every 32-bit word that decodes to a command, the command is well formed and its encoding is that word. (rests
on 30_encoding.md R51, 30_encoding.md R57, 30_encoding.md R60) -/
def Obligations.EncodeOfDecodeIsTheWord : Prop :=
  ∀ (cmd : CmdWord) (i : Instr), decode cmd = .ok i → i.wellFormed = true ∧ encode i = cmd

/-- For every word and every row of the opcode map, the word matches the row (cmd & mask = match) exactly when it
decodes to a command of the row's opcode; a word that decodes matches some row; no word matches two rows; there are 29
rows. (R55) -/
def Obligations.DecoderAgreesWithOpcodeMap : Prop :=
  opcodeMap.length = 29 ∧
  (∀ (cmd : CmdWord), ∀ row ∈ opcodeMap,
    (cmd &&& row.mask = row.bits ↔ ∃ i, decode cmd = .ok i ∧ opcodeOf i = row.opcode)) ∧
  (∀ (cmd : CmdWord) (i : Instr), decode cmd = .ok i → ∃ row ∈ opcodeMap, cmd &&& row.mask = row.bits) ∧
  (∀ (cmd : CmdWord), ∀ row ∈ opcodeMap, ∀ row' ∈ opcodeMap,
    cmd &&& row.mask = row.bits → cmd &&& row'.mask = row'.bits → row = row')

/-- One word of each family from the spec's vectors decodes to the command named there, and three illegal words are
refused with their reason. (rests on 95_test_vectors.md sections 2.1 to 2.8) -/
def Obligations.SampleWordsDecodeAsTheSpecEncodesThem : Prop :=
  decode 0x01020000 = .ok (.bitcnt .w32) ∧ decode 0x1103003F = .ok (.ror .w64 63) ∧
  decode 0x24030028 = .ok (.secmaskbe .w64 40) ∧ decode 0x31020804 = .ok (.extv .w32 4 8) ∧
  decode 0x42000004 = .ok (.encn .w8 4) ∧ decode 0x53030000 = .ok (.hencn .w64) ∧
  decode 0x6202000C = .ok (.sext .w32 12) ∧ decode 0x01040000 = .error .reservedZ ∧
  decode 0x02020000 = .error .unknownOpcode ∧ decode 0x52010000 = .error .narrowEncoder

/-- If the next host input is a command word that decodes to i, with operand values ops, then step is exec of i at the
state whose operand ports are ops and whose later inputs are the rest. With nothing presented step stops with
noCommand (the model's choice, notes/assumptions/5.md). (rests on 00_scope.md R12, 60_exceptions.md R154) -/
def Obligations.StepRunsTheDecodedCommand : Prop :=
  (∀ (s : State) (cmd : CmdWord) (ops : Operands) (rest : List HostInput) (i : Instr),
    s.pending = .command cmd ops :: rest → decode cmd = .ok i →
    step s = exec i { s with operands := ops, pending := rest }) ∧
  (∀ s : State, s.pending = [] → step s = .fault .noCommand)

/-- On an unlocked block a presented word that matches no row of the opcode map is answered with the fault ILLEGAL_CMD
and FLT becomes 1; H and CUR are unchanged, whatever the operand values. The all-zeros and the all-ones word match no
row. (R58) -/
def Obligations.IllegalWordFaultsBeforeOperands : Prop :=
  (∀ (s : State) (cmd : CmdWord) (ops : Operands) (rest : List HostInput),
    s.pending = .command cmd ops :: rest → s.block.flt = 0 →
    (∀ row ∈ opcodeMap, cmd &&& row.mask ≠ row.bits) →
    step s = .next { block := { s.block with flt := 1 }, operands := ops,
                     response := some (.fault .illegalCmd), pending := rest }) ∧
  (∀ row ∈ opcodeMap, (0 : CmdWord) &&& row.mask ≠ row.bits ∧ (0xFFFFFFFF : CmdWord) &&& row.mask ≠ row.bits)

/-- On a locked block every presented command word, legal or illegal, with any operands, is answered LOCKED, and H,
CUR and FLT are unchanged. A step from a locked state to an unlocked one is a reset. (R155) -/
def Obligations.LockedBlockAnswersLocked : Prop :=
  (∀ (s : State) (cmd : CmdWord) (ops : Operands) (rest : List HostInput),
    s.pending = .command cmd ops :: rest → s.block.flt ≠ 0 →
    step s = .next { s with operands := ops, response := some .locked, pending := rest } ∧
    statusOf .locked = 7) ∧
  (∀ s t : State, step s = .next t → s.block.flt ≠ 0 → t.block.flt = 0 → ∃ rest, s.pending = .reset :: rest)

/-- If a presented command is answered with a fault, then FLT was 0, ST is the fault's code (1 to 6), FLT is that
code, H and CUR are as they were, and there is no result. (R153) -/
def Obligations.FaultEntryChangesOnlyTheLatch : Prop :=
  ∀ (s t : State) (cmd : CmdWord) (ops : Operands) (rest : List HostInput) (cause : FaultCause),
    s.pending = .command cmd ops :: rest → step s = .next t → t.response = some (.fault cause) →
    s.block.flt = 0 ∧
    t = { block := { s.block with flt := statusOf (.fault cause) }, operands := ops,
          response := some (.fault cause), pending := rest } ∧
    1 ≤ (statusOf (.fault cause)).toNat ∧ (statusOf (.fault cause)).toNat ≤ 6

/-- For every state, every 32-bit word and every operand values, if they are the next host input then step answers a
next state with a response, the presented operand values on the ports, and the rest of the inputs still to come.
(rests on 00_scope.md R12, 30_encoding.md R59, 70_reset_and_hazards.md R183) -/
def Obligations.EveryCommandGetsOneResponse : Prop :=
  ∀ (s : State) (cmd : CmdWord) (ops : Operands) (rest : List HostInput),
    s.pending = .command cmd ops :: rest →
    ∃ t x, step s = .next t ∧ t.response = some x ∧ t.operands = ops ∧ t.pending = rest

/-- Two states with the same H, CUR and FLT that are presented the same command word and operands get the same
response and the same H, CUR and FLT, whatever their earlier responses, port values and later inputs. (rests on
20_memory.md R44, 20_memory.md R46, 10_state.md R20) -/
def Obligations.AnswerDependsOnBlockAndCommandOnly : Prop :=
  ∀ (s s' t : State) (cmd : CmdWord) (ops : Operands) (rest rest' : List HostInput),
    s.pending = .command cmd ops :: rest → s'.pending = .command cmd ops :: rest' → s.block = s'.block →
    step s = .next t → ∃ t', step s' = .next t' ∧ t'.response = t.response ∧ t'.block = t.block

/-- For every command, two operand values that agree on the low W bits of the ports the command reads give the same
response and the same H, CUR and FLT; HINIT looks at no operand. (rests on 00_scope.md R11, 30_encoding.md R61) -/
def Obligations.OnlyNamedPortBitsAreLookedAt : Prop :=
  ∀ (i : Instr) (s t : State) (o o' : Operands), SameReadBits i o o' →
    exec i { s with operands := o } = .next t →
    exec i { s with operands := o' } = .next { t with operands := o' }

/-- The block is given by H (64 bits), CUR (7 bits) and FLT (4 bits). For every command that answers a next state: H
changes only for HINIT, HSEED, HENC, HENCN, CUR only for those and HDEC, HDECN, and FLT only when the response is a
fault; operand ports and later inputs are unchanged. A pure command (not one of HINIT to HGET) gives the same response and
the same FLT from any two states that agree on FLT and the operand values, and changes neither H nor CUR. (rests on
10_state.md R20) -/
def Obligations.OnlyEncoderCommandsWriteTheBlock : Prop :=
  (∀ b b' : Block, b.h = b'.h → b.cur = b'.cur → b.flt = b'.flt → b = b') ∧
  (∀ (i : Instr) (s t : State), exec i s = .next t →
    t.operands = s.operands ∧ t.pending = s.pending ∧
    (t.block.h ≠ s.block.h → writesHandle i = true) ∧
    (t.block.cur ≠ s.block.cur → startsSession i = true ∨ advancesCursor i = true) ∧
    (t.block.flt ≠ s.block.flt → ∃ cause, t.response = some (.fault cause))) ∧
  (∀ (i : Instr) (s s' t : State), isPure i = true → s.block.flt = s'.block.flt → s.operands = s'.operands →
    exec i s = .next t →
    t.block.h = s.block.h ∧ t.block.cur = s.block.cur ∧
    ∃ t', exec i s' = .next t' ∧ t'.response = t.response ∧ t'.block.flt = t.block.flt)

/-- The word 0x01WW0000 is BITCNT. On an unlocked block it completes with R the sum of the bits A[W-1:0], R2 = 0, and
nothing else changes; it has no fault of its own. (R71) -/
def Obligations.BitcntCountsTheOneBits : Prop :=
  (∀ ws : Width, decode (BitVec.ofNat 32 (0x01 * 2 ^ 24 + ws.code * 2 ^ 16)) = .ok (.bitcnt ws)) ∧
  ∀ (ws : Width) (s : State), s.block.flt = 0 →
    exec (.bitcnt ws) s = .next { s with response := some (.ok (BitVec.ofNat 64 (onesCount ws s.operands.a)) 0) } ∧
    onesCount ws s.operands.a ≤ ws.bits

/-- The word 0x10WW00PP is ROL. On an unlocked block with p < W it completes with R[(i+p) mod W] = A[i] for every i <
W, the bits of R from W up 0, R2 = 0, and no state written; with p >= W it faults BAD_INDEX and changes only FLT.
(R76) -/
def Obligations.RolMovesBitsUpModuloWidth : Prop :=
  (∀ (ws : Width) (p : Nat), p < 256 →
    decode (BitVec.ofNat 32 (0x10 * 2 ^ 24 + ws.code * 2 ^ 16 + p)) = .ok (.rol ws p)) ∧
  ∀ (ws : Width) (p : Nat) (s : State), s.block.flt = 0 →
    (p < ws.bits → ∃ r : Port, exec (.rol ws p) s = .next { s with response := some (.ok r 0) } ∧
      (∀ i < ws.bits, r.getLsbD ((i + p) % ws.bits) = s.operands.a.getLsbD i) ∧ r.toNat < 2 ^ ws.bits) ∧
    (ws.bits ≤ p → exec (.rol ws p) s =
      .next { s with block := { s.block with flt := 2 }, response := some (.fault .badIndex) })

/-- The word 0x11WW00PP is ROR. On an unlocked block with p < W it completes with R[i] = A[(i+p) mod W] for every i <
W, the bits of R from W up 0, R2 = 0, and no state written; with p >= W it faults BAD_INDEX and changes only FLT.
(R77) -/
def Obligations.RorMovesBitsDownModuloWidth : Prop :=
  (∀ (ws : Width) (p : Nat), p < 256 →
    decode (BitVec.ofNat 32 (0x11 * 2 ^ 24 + ws.code * 2 ^ 16 + p)) = .ok (.ror ws p)) ∧
  ∀ (ws : Width) (p : Nat) (s : State), s.block.flt = 0 →
    (p < ws.bits → ∃ r : Port, exec (.ror ws p) s = .next { s with response := some (.ok r 0) } ∧
      (∀ i < ws.bits, r.getLsbD i = s.operands.a.getLsbD ((i + p) % ws.bits)) ∧ r.toNat < 2 ^ ws.bits) ∧
    (ws.bits ≤ p → exec (.ror ws p) s =
      .next { s with block := { s.block with flt := 2 }, response := some (.fault .badIndex) })

/-- The word 0x12WW00PP is SHL. On an unlocked block with p < W it completes with R[i] = A[i-p] for p <= i < W and
every other bit of R 0, R2 = 0, and no state written; with p >= W it faults BAD_INDEX and changes only FLT. (R78) -/
def Obligations.ShlShiftsInZerosAtTheBottom : Prop :=
  (∀ (ws : Width) (p : Nat), p < 256 →
    decode (BitVec.ofNat 32 (0x12 * 2 ^ 24 + ws.code * 2 ^ 16 + p)) = .ok (.shl ws p)) ∧
  ∀ (ws : Width) (p : Nat) (s : State), s.block.flt = 0 →
    (p < ws.bits → ∃ r : Port, exec (.shl ws p) s = .next { s with response := some (.ok r 0) } ∧
      ∀ i : Nat, r.getLsbD i = (decide (p ≤ i ∧ i < ws.bits) && s.operands.a.getLsbD (i - p))) ∧
    (ws.bits ≤ p → exec (.shl ws p) s =
      .next { s with block := { s.block with flt := 2 }, response := some (.fault .badIndex) })

/-- The word 0x13WW00PP is SHR. On an unlocked block with p < W it completes with R[i] = A[i+p] for i + p < W and
every other bit of R 0, R2 = 0, and no state written; with p >= W it faults BAD_INDEX and changes only FLT. (R79) -/
def Obligations.ShrShiftsInZerosAtTheTop : Prop :=
  (∀ (ws : Width) (p : Nat), p < 256 →
    decode (BitVec.ofNat 32 (0x13 * 2 ^ 24 + ws.code * 2 ^ 16 + p)) = .ok (.shr ws p)) ∧
  ∀ (ws : Width) (p : Nat) (s : State), s.block.flt = 0 →
    (p < ws.bits → ∃ r : Port, exec (.shr ws p) s = .next { s with response := some (.ok r 0) } ∧
      ∀ i : Nat, r.getLsbD i = (decide (i + p < ws.bits) && s.operands.a.getLsbD (i + p))) ∧
    (ws.bits ≤ p → exec (.shr ws p) s =
      .next { s with block := { s.block with flt := 2 }, response := some (.fault .badIndex) })

/-- The word 0x20WW00PP is MASKN. On an unlocked block with p <= W it completes with R = 2^p - 1, that is exactly the
bits below p set, R2 = 0, and no state written; with p > W it faults BAD_COUNT and changes only FLT. (R86) -/
def Obligations.MasknSetsTheLowBits : Prop :=
  (∀ (ws : Width) (p : Nat), p < 256 →
    decode (BitVec.ofNat 32 (0x20 * 2 ^ 24 + ws.code * 2 ^ 16 + p)) = .ok (.maskn ws p)) ∧
  ∀ (ws : Width) (p : Nat) (s : State), s.block.flt = 0 →
    (p ≤ ws.bits → ∃ r : Port, exec (.maskn ws p) s = .next { s with response := some (.ok r 0) } ∧
      r.toNat = 2 ^ p - 1 ∧ ∀ i : Nat, r.getLsbD i = decide (i < p)) ∧
    (ws.bits < p → exec (.maskn ws p) s =
      .next { s with block := { s.block with flt := 4 }, response := some (.fault .badCount) })

/-- The word 0x21WW00PP is VEMASKLE. On an unlocked block with p < W it completes with R = 2^p, R2 = 0, and no state
written; with p >= W it faults BAD_INDEX and changes only FLT. (R87) -/
def Obligations.VemaskleSetsBitPFromTheBottom : Prop :=
  (∀ (ws : Width) (p : Nat), p < 256 →
    decode (BitVec.ofNat 32 (0x21 * 2 ^ 24 + ws.code * 2 ^ 16 + p)) = .ok (.vemaskle ws p)) ∧
  ∀ (ws : Width) (p : Nat) (s : State), s.block.flt = 0 →
    (p < ws.bits → ∃ r : Port, exec (.vemaskle ws p) s = .next { s with response := some (.ok r 0) } ∧
      ∀ i : Nat, r.getLsbD i = decide (i = p)) ∧
    (ws.bits ≤ p → exec (.vemaskle ws p) s =
      .next { s with block := { s.block with flt := 2 }, response := some (.fault .badIndex) })

/-- The word 0x22WW00PP is VEMASKBE. On an unlocked block with p < W it completes with R = 2^(W-1-p), R2 = 0, and no
state written; with p >= W it faults BAD_INDEX and changes only FLT. (R88) -/
def Obligations.VemaskbeSetsBitPFromTheTop : Prop :=
  (∀ (ws : Width) (p : Nat), p < 256 →
    decode (BitVec.ofNat 32 (0x22 * 2 ^ 24 + ws.code * 2 ^ 16 + p)) = .ok (.vemaskbe ws p)) ∧
  ∀ (ws : Width) (p : Nat) (s : State), s.block.flt = 0 →
    (p < ws.bits → ∃ r : Port, exec (.vemaskbe ws p) s = .next { s with response := some (.ok r 0) } ∧
      ∀ i : Nat, r.getLsbD i = decide (i + p + 1 = ws.bits)) ∧
    (ws.bits ≤ p → exec (.vemaskbe ws p) s =
      .next { s with block := { s.block with flt := 2 }, response := some (.fault .badIndex) })

/-- The word 0x23WW00PP is SECMASKLE. On an unlocked block with p < W it completes with exactly the bits W-1 down to p
of R set, R2 = 0, and no state written; with p >= W, the empty section included, it faults BAD_INDEX and changes only
FLT. (R89) -/
def Obligations.SecmaskleSetsBitsFromPUp : Prop :=
  (∀ (ws : Width) (p : Nat), p < 256 →
    decode (BitVec.ofNat 32 (0x23 * 2 ^ 24 + ws.code * 2 ^ 16 + p)) = .ok (.secmaskle ws p)) ∧
  ∀ (ws : Width) (p : Nat) (s : State), s.block.flt = 0 →
    (p < ws.bits → ∃ r : Port, exec (.secmaskle ws p) s = .next { s with response := some (.ok r 0) } ∧
      ∀ i : Nat, r.getLsbD i = decide (p ≤ i ∧ i < ws.bits)) ∧
    (ws.bits ≤ p → exec (.secmaskle ws p) s =
      .next { s with block := { s.block with flt := 2 }, response := some (.fault .badIndex) })

/-- The word 0x24WW00PP is SECMASKBE. On an unlocked block with p < W it completes with exactly the bits W-1-p down to
0 of R set, R2 = 0, and no state written; with p >= W it faults BAD_INDEX and changes only FLT. (R90) -/
def Obligations.SecmaskbeSetsTheLowWMinusPBits : Prop :=
  (∀ (ws : Width) (p : Nat), p < 256 →
    decode (BitVec.ofNat 32 (0x24 * 2 ^ 24 + ws.code * 2 ^ 16 + p)) = .ok (.secmaskbe ws p)) ∧
  ∀ (ws : Width) (p : Nat) (s : State), s.block.flt = 0 →
    (p < ws.bits → ∃ r : Port, exec (.secmaskbe ws p) s = .next { s with response := some (.ok r 0) } ∧
      ∀ i : Nat, r.getLsbD i = decide (i + p < ws.bits)) ∧
    (ws.bits ≤ p → exec (.secmaskbe ws p) s =
      .next { s with block := { s.block with flt := 2 }, response := some (.fault .badIndex) })

/-- The word 0x25WW0000 is NONETRAITS. On an unlocked block with a = A[W-1:0] not 0 it completes with R2 = n and R =
2^n - 1 for the n that is ceil(log2(a + 1)), which is between 1 and W and the least n with a < 2^n, and no state
written; with a = 0 it faults BAD_ARG and changes only FLT. (R91) -/
def Obligations.NonetraitsGivesTheLeastNoneableField : Prop :=
  (∀ ws : Width, decode (BitVec.ofNat 32 (0x25 * 2 ^ 24 + ws.code * 2 ^ 16)) = .ok (.nonetraits ws)) ∧
  ∀ (ws : Width) (s : State), s.block.flt = 0 →
    ((lowBits ws s.operands.a).toNat ≠ 0 → ∃ n : Nat, exec (.nonetraits ws) s =
        .next { s with response := some (.ok (BitVec.ofNat 64 (2 ^ n - 1)) (BitVec.ofNat 8 n)) } ∧
      n = Nat.clog 2 ((lowBits ws s.operands.a).toNat + 1) ∧ 1 ≤ n ∧ n ≤ ws.bits ∧
      ∀ k : Nat, (lowBits ws s.operands.a).toNat < 2 ^ k ↔ n ≤ k) ∧
    ((lowBits ws s.operands.a).toNat = 0 → exec (.nonetraits ws) s =
      .next { s with block := { s.block with flt := 6 }, response := some (.fault .badArg) })

/-- The word 0x26WW0000 is ENUMBITS. The rounding switch of the rule stands at its default ceil (the model's choice,
notes/assumptions/7.md). On an unlocked block with a = A[W-1:0] greater than 1 ENUMBITS then completes with R =
ceil(log2(a - 1)) + 1, R2 = 0, and no state written; with a <= 1 it faults BAD_ARG and changes only FLT. The floor setting
of the switch is bitlen(a - 1), the least n with a - 1 < 2^n, and the two agree exactly when a - 1 is a power of two, ceil
being one larger otherwise. (rests on 42_bit_mask_gen.md R92) -/
def Obligations.EnumbitsFollowsThePrintedFormula : Prop :=
  (∀ ws : Width, decode (BitVec.ofNat 32 (0x26 * 2 ^ 24 + ws.code * 2 ^ 16)) = .ok (.enumbits ws)) ∧
  config.enumBitsRounding = .ceil ∧
  (∀ (ws : Width) (s : State), s.block.flt = 0 →
    (1 < (lowBits ws s.operands.a).toNat → exec (.enumbits ws) s =
      .next { s with response := some (.ok (BitVec.ofNat 64 (Nat.clog 2 ((lowBits ws s.operands.a).toNat - 1) + 1)) 0) }) ∧
    ((lowBits ws s.operands.a).toNat ≤ 1 → exec (.enumbits ws) s =
      .next { s with block := { s.block with flt := 6 }, response := some (.fault .badArg) })) ∧
  (∀ a : Nat, 1 < a → (∀ k : Nat, a - 1 < 2 ^ k ↔ enumBits .floor a ≤ k) ∧
    ((∃ k : Nat, a - 1 = 2 ^ k) → enumBits .ceil a = enumBits .floor a) ∧
    ((∀ k : Nat, a - 1 ≠ 2 ^ k) → enumBits .ceil a = enumBits .floor a + 1))

/-- The word 0x30WWQQPP is EXTR. On an unlocked block with p <= q < W it completes with R[i] = A[p+i] for i <= q - p
and every other bit of R 0, R2 = 0, and no state written; with q >= W or p > q it faults BAD_INDEX and changes only
FLT. (R101) -/
def Obligations.ExtrExtractsTheInclusiveRange : Prop :=
  (∀ (ws : Width) (p q : Nat), p < 256 → q < 256 →
    decode (BitVec.ofNat 32 (0x30 * 2 ^ 24 + ws.code * 2 ^ 16 + q * 2 ^ 8 + p)) = .ok (.extr ws p q)) ∧
  ∀ (ws : Width) (p q : Nat) (s : State), s.block.flt = 0 →
    (p ≤ q → q < ws.bits → ∃ r : Port, exec (.extr ws p q) s = .next { s with response := some (.ok r 0) } ∧
      ∀ i : Nat, r.getLsbD i = (decide (p + i ≤ q) && s.operands.a.getLsbD (p + i))) ∧
    (ws.bits ≤ q ∨ q < p → exec (.extr ws p q) s =
      .next { s with block := { s.block with flt := 2 }, response := some (.fault .badIndex) })

/-- The word 0x31WWQQPP is EXTV. On an unlocked block with p < W, 1 <= q and p + q <= W it completes with R[i] =
A[p+i] for i < q and every other bit of R 0, R2 = 0, and no state written; with p >= W it faults BAD_INDEX, and with p
< W and (q = 0 or p + q > W) BAD_COUNT, changing only FLT. It then agrees with EXTR of p and p + q - 1. (R102) -/
def Obligations.ExtvExtractsCountBits : Prop :=
  (∀ (ws : Width) (p q : Nat), p < 256 → q < 256 →
    decode (BitVec.ofNat 32 (0x31 * 2 ^ 24 + ws.code * 2 ^ 16 + q * 2 ^ 8 + p)) = .ok (.extv ws p q)) ∧
  ∀ (ws : Width) (p q : Nat) (s : State), s.block.flt = 0 →
    (p < ws.bits → 1 ≤ q → p + q ≤ ws.bits → ∃ r : Port, exec (.extv ws p q) s = .next { s with response := some (.ok r 0) } ∧
      (∀ i : Nat, r.getLsbD i = (decide (i < q) && s.operands.a.getLsbD (p + i))) ∧
      exec (.extv ws p q) s = exec (.extr ws p (p + q - 1)) s) ∧
    (ws.bits ≤ p → exec (.extv ws p q) s =
      .next { s with block := { s.block with flt := 2 }, response := some (.fault .badIndex) }) ∧
    (p < ws.bits → q = 0 ∨ ws.bits < p + q → exec (.extv ws p q) s =
      .next { s with block := { s.block with flt := 4 }, response := some (.fault .badCount) })

/-- The word 0x32WW00PP is DEC. With m = C[W-1:0]: on an unlocked block with p < W, m not 0 and p + popcount(m) <= W
it completes with R[i] = A[p+i] and m[i] for p + i < W and every other bit of R 0, R2 = p + popcount(m), and no state
written; otherwise it faults and changes only FLT: BAD_INDEX when p >= W, else ZERO_MASK when the mask is 0, else
BAD_COUNT. The mask need not be contiguous. (R103) -/
def Obligations.DecReadsTheFieldAndAdvances : Prop :=
  (∀ (ws : Width) (p : Nat), p < 256 →
    decode (BitVec.ofNat 32 (0x32 * 2 ^ 24 + ws.code * 2 ^ 16 + p)) = .ok (.dec ws p)) ∧
  ∀ (ws : Width) (p : Nat) (s : State), s.block.flt = 0 →
    (p < ws.bits → lowBits ws s.operands.c ≠ 0 → p + onesCount ws s.operands.c ≤ ws.bits →
      ∃ r : Port, exec (.dec ws p) s =
        .next { s with response := some (.ok r (BitVec.ofNat 8 (p + onesCount ws s.operands.c))) } ∧
      ∀ i : Nat, r.getLsbD i =
        (decide (p + i < ws.bits) && s.operands.a.getLsbD (p + i) && s.operands.c.getLsbD i)) ∧
    (ws.bits ≤ p → exec (.dec ws p) s =
      .next { s with block := { s.block with flt := 2 }, response := some (.fault .badIndex) }) ∧
    (p < ws.bits → lowBits ws s.operands.c = 0 → exec (.dec ws p) s =
      .next { s with block := { s.block with flt := 3 }, response := some (.fault .zeroMask) }) ∧
    (p < ws.bits → lowBits ws s.operands.c ≠ 0 → ws.bits < p + onesCount ws s.operands.c → exec (.dec ws p) s =
      .next { s with block := { s.block with flt := 4 }, response := some (.fault .badCount) })

/-- The word 0x33WW00PP is DECN. With m = C[W-1:0] and e the stored code: on an unlocked block with p < W, m not 0 and
p + popcount(m) <= W it completes with R = (e + 2^W - 1) mod 2^W, so all ones of the width when e is 0, R2 = p +
popcount(m), and no state written; otherwise it faults and changes only FLT: BAD_INDEX when p >= W, else ZERO_MASK
when the mask is 0, else BAD_COUNT. (R104) -/
def Obligations.DecnSubtractsOneFromTheField : Prop :=
  (∀ (ws : Width) (p : Nat), p < 256 →
    decode (BitVec.ofNat 32 (0x33 * 2 ^ 24 + ws.code * 2 ^ 16 + p)) = .ok (.decn ws p)) ∧
  ∀ (ws : Width) (p : Nat) (s : State), s.block.flt = 0 →
    (p < ws.bits → lowBits ws s.operands.c ≠ 0 → p + onesCount ws s.operands.c ≤ ws.bits →
      ∃ r : Port, exec (.decn ws p) s =
        .next { s with response := some (.ok r (BitVec.ofNat 8 (p + onesCount ws s.operands.c))) } ∧
      r.toNat = (((s.operands.a.toNat % 2 ^ ws.bits / 2 ^ p) &&& (s.operands.c.toNat % 2 ^ ws.bits)) + 2 ^ ws.bits - 1)
        % 2 ^ ws.bits) ∧
    (ws.bits ≤ p → exec (.decn ws p) s =
      .next { s with block := { s.block with flt := 2 }, response := some (.fault .badIndex) }) ∧
    (p < ws.bits → lowBits ws s.operands.c = 0 → exec (.decn ws p) s =
      .next { s with block := { s.block with flt := 3 }, response := some (.fault .zeroMask) }) ∧
    (p < ws.bits → lowBits ws s.operands.c ≠ 0 → ws.bits < p + onesCount ws s.operands.c → exec (.decn ws p) s =
      .next { s with block := { s.block with flt := 4 }, response := some (.fault .badCount) })

/-- The word 0x40WW00PP is ENCE. With m = C[W-1:0]: on an unlocked block with p < W, m not 0 and p + popcount(m) <= W
it completes with R[i] = B[i-p] where p <= i < W and m[i-p] is set, R[i] = A[i] elsewhere below W, R[i] = 0 from W up,
R2 = p + popcount(m), and no state written; otherwise it faults and changes only FLT: BAD_INDEX when p >= W, else
ZERO_MASK when the mask is 0, else BAD_COUNT. (R111) -/
def Obligations.EnceClearsThenSetsTheField : Prop :=
  (∀ (ws : Width) (p : Nat), p < 256 →
    decode (BitVec.ofNat 32 (0x40 * 2 ^ 24 + ws.code * 2 ^ 16 + p)) = .ok (.ence ws p)) ∧
  ∀ (ws : Width) (p : Nat) (s : State), s.block.flt = 0 →
    (p < ws.bits → lowBits ws s.operands.c ≠ 0 → p + onesCount ws s.operands.c ≤ ws.bits →
      ∃ r : Port, exec (.ence ws p) s =
        .next { s with response := some (.ok r (BitVec.ofNat 8 (p + onesCount ws s.operands.c))) } ∧
      ∀ i : Nat, r.getLsbD i = (decide (i < ws.bits) &&
        (if p ≤ i ∧ s.operands.c.getLsbD (i - p) = true then s.operands.b.getLsbD (i - p) else s.operands.a.getLsbD i))) ∧
    (ws.bits ≤ p → exec (.ence ws p) s =
      .next { s with block := { s.block with flt := 2 }, response := some (.fault .badIndex) }) ∧
    (p < ws.bits → lowBits ws s.operands.c = 0 → exec (.ence ws p) s =
      .next { s with block := { s.block with flt := 3 }, response := some (.fault .zeroMask) }) ∧
    (p < ws.bits → lowBits ws s.operands.c ≠ 0 → ws.bits < p + onesCount ws s.operands.c → exec (.ence ws p) s =
      .next { s with block := { s.block with flt := 4 }, response := some (.fault .badCount) })

/-- The word 0x41WW00PP is ENCF. With m = C[W-1:0]: on an unlocked block with p < W, m not 0 and p + popcount(m) <= W
it completes with R[i] = A[i] or (p <= i and m[i-p] and B[i-p]) below W, R[i] = 0 from W up, R2 = p + popcount(m), and
no state written; otherwise it faults and changes only FLT: BAD_INDEX when p >= W, else ZERO_MASK when the mask is 0,
else BAD_COUNT. When the field of A is 0 it gives the same answer as ENCE. (R112) -/
def Obligations.EncfOrsTheFieldIn : Prop :=
  (∀ (ws : Width) (p : Nat), p < 256 →
    decode (BitVec.ofNat 32 (0x41 * 2 ^ 24 + ws.code * 2 ^ 16 + p)) = .ok (.encf ws p)) ∧
  ∀ (ws : Width) (p : Nat) (s : State), s.block.flt = 0 →
    (p < ws.bits → lowBits ws s.operands.c ≠ 0 → p + onesCount ws s.operands.c ≤ ws.bits →
      ∃ r : Port, exec (.encf ws p) s =
        .next { s with response := some (.ok r (BitVec.ofNat 8 (p + onesCount ws s.operands.c))) } ∧
      (∀ i : Nat, r.getLsbD i = (decide (i < ws.bits) && (s.operands.a.getLsbD i ||
        (decide (p ≤ i) && s.operands.c.getLsbD (i - p) && s.operands.b.getLsbD (i - p))))) ∧
      ((∀ i < ws.bits, p ≤ i → s.operands.c.getLsbD (i - p) = true → s.operands.a.getLsbD i = false) →
        exec (.encf ws p) s = exec (.ence ws p) s)) ∧
    (ws.bits ≤ p → exec (.encf ws p) s =
      .next { s with block := { s.block with flt := 2 }, response := some (.fault .badIndex) }) ∧
    (p < ws.bits → lowBits ws s.operands.c = 0 → exec (.encf ws p) s =
      .next { s with block := { s.block with flt := 3 }, response := some (.fault .zeroMask) }) ∧
    (p < ws.bits → lowBits ws s.operands.c ≠ 0 → ws.bits < p + onesCount ws s.operands.c → exec (.encf ws p) s =
      .next { s with block := { s.block with flt := 4 }, response := some (.fault .badCount) })

/-- The word 0x42WW00PP is ENCN. With m = C[W-1:0] and e = (B + 1) mod 2^W: on an unlocked block with p < W, m not 0
and p + popcount(m) <= W it completes with R[i] = e[i-p] where p <= i < W and m[i-p] is set, R[i] = A[i] elsewhere
below W, R[i] = 0 from W up, R2 = p + popcount(m), and no state written; otherwise it faults and changes only FLT:
BAD_INDEX when p >= W, else ZERO_MASK when the mask is 0, else BAD_COUNT. (R113) -/
def Obligations.EncnStoresTheValuePlusOne : Prop :=
  (∀ (ws : Width) (p : Nat), p < 256 →
    decode (BitVec.ofNat 32 (0x42 * 2 ^ 24 + ws.code * 2 ^ 16 + p)) = .ok (.encn ws p)) ∧
  ∀ (ws : Width) (p : Nat) (s : State), s.block.flt = 0 →
    (p < ws.bits → lowBits ws s.operands.c ≠ 0 → p + onesCount ws s.operands.c ≤ ws.bits →
      ∃ r : Port, exec (.encn ws p) s =
        .next { s with response := some (.ok r (BitVec.ofNat 8 (p + onesCount ws s.operands.c))) } ∧
      ∀ i : Nat, r.getLsbD i = (decide (i < ws.bits) &&
        (if p ≤ i ∧ s.operands.c.getLsbD (i - p) = true then (s.operands.b + 1).getLsbD (i - p)
          else s.operands.a.getLsbD i))) ∧
    (ws.bits ≤ p → exec (.encn ws p) s =
      .next { s with block := { s.block with flt := 2 }, response := some (.fault .badIndex) }) ∧
    (p < ws.bits → lowBits ws s.operands.c = 0 → exec (.encn ws p) s =
      .next { s with block := { s.block with flt := 3 }, response := some (.fault .zeroMask) }) ∧
    (p < ws.bits → lowBits ws s.operands.c ≠ 0 → ws.bits < p + onesCount ws s.operands.c → exec (.encn ws p) s =
      .next { s with block := { s.block with flt := 4 }, response := some (.fault .badCount) })

/-- The word 0x50000000, and no other word, is HINIT. On an unlocked block it completes with H = 0, CUR = 0, R = 0, R2
= 0 and nothing else changed; on a locked block it is answered LOCKED and changes nothing. (R123) -/
def Obligations.HinitClearsHandleAndCursor : Prop :=
  (∀ cmd : CmdWord, decode cmd = .ok .hinit ↔ cmd = 0x50000000) ∧
  ∀ s : State,
    (s.block.flt = 0 → exec .hinit s =
      .next { s with block := { s.block with h := 0, cur := 0 }, response := some (.ok 0 0) }) ∧
    (s.block.flt ≠ 0 → exec .hinit s = .next { s with response := some .locked })

/-- The words 0x51020000 and 0x51030000 are HSEED.32 and HSEED.64. On an unlocked block HSEED completes with H = A mod
2^W (for W = 32 the upper half is 0), CUR = 0, R = 0, R2 = 0 and nothing else changed. (R124) -/
def Obligations.HseedLoadsTheWordAndRestartsTheCursor : Prop :=
  (∀ ws : Width, encoderWidth ws = true →
    decode (BitVec.ofNat 32 (0x51 * 2 ^ 24 + ws.code * 2 ^ 16)) = .ok (.hseed ws)) ∧
  ∀ (ws : Width) (s : State), encoderWidth ws = true → s.block.flt = 0 →
    exec (.hseed ws) s =
      .next { s with block := { s.block with h := lowBits ws s.operands.a, cur := 0 }, response := some (.ok 0 0) }

/-- The words 0x52020000 and 0x52030000 are HENC. With m = C[W-1:0]: on an unlocked block with m not 0 and CUR +
popcount(m) <= W it completes with H[i] = B[i-CUR] where CUR <= i < W and m[i-CUR] is set and every other bit of H as
it was, CUR and R2 the old CUR plus popcount(m), R = 0, and nothing else changed; with m = 0 it faults ZERO_MASK, else
with CUR + popcount(m) > W CURSOR_OVERFLOW, and changes only FLT. (R125) -/
def Obligations.HencAppendsAFieldAtTheCursor : Prop :=
  (∀ ws : Width, encoderWidth ws = true →
    decode (BitVec.ofNat 32 (0x52 * 2 ^ 24 + ws.code * 2 ^ 16)) = .ok (.henc ws)) ∧
  ∀ (ws : Width) (s : State), encoderWidth ws = true → s.block.flt = 0 →
    (lowBits ws s.operands.c ≠ 0 → s.block.cur.toNat + onesCount ws s.operands.c ≤ ws.bits →
      ∃ h : Port, exec (.henc ws) s =
        .next { s with
          block := { s.block with h := h, cur := BitVec.ofNat 7 (s.block.cur.toNat + onesCount ws s.operands.c) }
          response := some (.ok 0 (BitVec.ofNat 8 (s.block.cur.toNat + onesCount ws s.operands.c))) } ∧
      ∀ i : Nat, h.getLsbD i =
        (if s.block.cur.toNat ≤ i ∧ i < ws.bits ∧ s.operands.c.getLsbD (i - s.block.cur.toNat) = true
          then s.operands.b.getLsbD (i - s.block.cur.toNat) else s.block.h.getLsbD i)) ∧
    (lowBits ws s.operands.c = 0 → exec (.henc ws) s =
      .next { s with block := { s.block with flt := 3 }, response := some (.fault .zeroMask) }) ∧
    (lowBits ws s.operands.c ≠ 0 → ws.bits < s.block.cur.toNat + onesCount ws s.operands.c → exec (.henc ws) s =
      .next { s with block := { s.block with flt := 5 }, response := some (.fault .cursorOverflow) })

/-- The words 0x53020000 and 0x53030000 are HENCN. With m = C[W-1:0] and e = (B + 1) mod 2^W: on an unlocked block
with m not 0 and CUR + popcount(m) <= W it completes with H[i] = e[i-CUR] where CUR <= i < W and m[i-CUR] is set and
every other bit of H as it was, CUR and R2 the old CUR plus popcount(m), R = 0, and nothing else changed; with m = 0
it faults ZERO_MASK, else with CUR + popcount(m) > W CURSOR_OVERFLOW, and changes only FLT. (R126) -/
def Obligations.HencnAppendsANoneableField : Prop :=
  (∀ ws : Width, encoderWidth ws = true →
    decode (BitVec.ofNat 32 (0x53 * 2 ^ 24 + ws.code * 2 ^ 16)) = .ok (.hencn ws)) ∧
  ∀ (ws : Width) (s : State), encoderWidth ws = true → s.block.flt = 0 →
    (lowBits ws s.operands.c ≠ 0 → s.block.cur.toNat + onesCount ws s.operands.c ≤ ws.bits →
      ∃ h : Port, exec (.hencn ws) s =
        .next { s with
          block := { s.block with h := h, cur := BitVec.ofNat 7 (s.block.cur.toNat + onesCount ws s.operands.c) }
          response := some (.ok 0 (BitVec.ofNat 8 (s.block.cur.toNat + onesCount ws s.operands.c))) } ∧
      ∀ i : Nat, h.getLsbD i =
        (if s.block.cur.toNat ≤ i ∧ i < ws.bits ∧ s.operands.c.getLsbD (i - s.block.cur.toNat) = true
          then (s.operands.b + 1).getLsbD (i - s.block.cur.toNat) else s.block.h.getLsbD i)) ∧
    (lowBits ws s.operands.c = 0 → exec (.hencn ws) s =
      .next { s with block := { s.block with flt := 3 }, response := some (.fault .zeroMask) }) ∧
    (lowBits ws s.operands.c ≠ 0 → ws.bits < s.block.cur.toNat + onesCount ws s.operands.c → exec (.hencn ws) s =
      .next { s with block := { s.block with flt := 5 }, response := some (.fault .cursorOverflow) })

/-- The words 0x54020000 and 0x54030000 are HDEC. With m = C[W-1:0]: on an unlocked block with m not 0 and CUR +
popcount(m) <= W it completes with R[i] = H[CUR+i] and m[i] for CUR + i < W and every other bit of R 0, CUR and R2 the
old CUR plus popcount(m), H and all else unchanged; with m = 0 it faults ZERO_MASK, else with CUR + popcount(m) > W
CURSOR_OVERFLOW, and changes only FLT. (R127) -/
def Obligations.HdecReadsTheFieldAtTheCursor : Prop :=
  (∀ ws : Width, encoderWidth ws = true →
    decode (BitVec.ofNat 32 (0x54 * 2 ^ 24 + ws.code * 2 ^ 16)) = .ok (.hdec ws)) ∧
  ∀ (ws : Width) (s : State), encoderWidth ws = true → s.block.flt = 0 →
    (lowBits ws s.operands.c ≠ 0 → s.block.cur.toNat + onesCount ws s.operands.c ≤ ws.bits →
      ∃ r : Port, exec (.hdec ws) s =
        .next { s with
          block := { s.block with cur := BitVec.ofNat 7 (s.block.cur.toNat + onesCount ws s.operands.c) }
          response := some (.ok r (BitVec.ofNat 8 (s.block.cur.toNat + onesCount ws s.operands.c))) } ∧
      ∀ i : Nat, r.getLsbD i = (decide (s.block.cur.toNat + i < ws.bits) &&
        s.block.h.getLsbD (s.block.cur.toNat + i) && s.operands.c.getLsbD i)) ∧
    (lowBits ws s.operands.c = 0 → exec (.hdec ws) s =
      .next { s with block := { s.block with flt := 3 }, response := some (.fault .zeroMask) }) ∧
    (lowBits ws s.operands.c ≠ 0 → ws.bits < s.block.cur.toNat + onesCount ws s.operands.c → exec (.hdec ws) s =
      .next { s with block := { s.block with flt := 5 }, response := some (.fault .cursorOverflow) })

/-- The words 0x55020000 and 0x55030000 are HDECN. With m = C[W-1:0] and e the stored code: on an unlocked block with
m not 0 and CUR + popcount(m) <= W it completes with R = (e + 2^W - 1) mod 2^W, CUR and R2 the old CUR plus
popcount(m), H and all else unchanged; with m = 0 it faults ZERO_MASK, else with CUR + popcount(m) > W
CURSOR_OVERFLOW, and changes only FLT. (R128) -/
def Obligations.HdecnReadsANoneableFieldAtTheCursor : Prop :=
  (∀ ws : Width, encoderWidth ws = true →
    decode (BitVec.ofNat 32 (0x55 * 2 ^ 24 + ws.code * 2 ^ 16)) = .ok (.hdecn ws)) ∧
  ∀ (ws : Width) (s : State), encoderWidth ws = true → s.block.flt = 0 →
    (lowBits ws s.operands.c ≠ 0 → s.block.cur.toNat + onesCount ws s.operands.c ≤ ws.bits →
      ∃ r : Port, exec (.hdecn ws) s =
        .next { s with
          block := { s.block with cur := BitVec.ofNat 7 (s.block.cur.toNat + onesCount ws s.operands.c) }
          response := some (.ok r (BitVec.ofNat 8 (s.block.cur.toNat + onesCount ws s.operands.c))) } ∧
      r.toNat = (((s.block.h.toNat % 2 ^ ws.bits / 2 ^ s.block.cur.toNat) &&& (s.operands.c.toNat % 2 ^ ws.bits))
        + 2 ^ ws.bits - 1) % 2 ^ ws.bits) ∧
    (lowBits ws s.operands.c = 0 → exec (.hdecn ws) s =
      .next { s with block := { s.block with flt := 3 }, response := some (.fault .zeroMask) }) ∧
    (lowBits ws s.operands.c ≠ 0 → ws.bits < s.block.cur.toNat + onesCount ws s.operands.c → exec (.hdecn ws) s =
      .next { s with block := { s.block with flt := 5 }, response := some (.fault .cursorOverflow) })

/-- The words 0x56020000 and 0x56030000 are HGET. On an unlocked block HGET completes with R = H mod 2^W, R2 = CUR,
and no state written. (R129) -/
def Obligations.HgetReadsOutHandleAndCursor : Prop :=
  (∀ ws : Width, encoderWidth ws = true →
    decode (BitVec.ofNat 32 (0x56 * 2 ^ 24 + ws.code * 2 ^ 16)) = .ok (.hget ws)) ∧
  ∀ (ws : Width) (s : State), encoderWidth ws = true → s.block.flt = 0 →
    exec (.hget ws) s =
      .next { s with response := some (.ok (lowBits ws s.block.h) (BitVec.ofNat 8 s.block.cur.toNat)) }

/-- The word 0x60WW0000 is BITREV. On an unlocked block it completes with R[i] = A[W-1-i] for i < W and every other
bit of R 0, R2 = 0, and no state written; applied to its own result it returns the low W bits of A. (R141) -/
def Obligations.BitrevMirrorsTheWord : Prop :=
  (∀ ws : Width, decode (BitVec.ofNat 32 (0x60 * 2 ^ 24 + ws.code * 2 ^ 16)) = .ok (.bitrev ws)) ∧
  ∀ (ws : Width) (s : State), s.block.flt = 0 →
    ∃ r : Port, exec (.bitrev ws) s = .next { s with response := some (.ok r 0) } ∧
      (∀ i : Nat, r.getLsbD i = (decide (i < ws.bits) && s.operands.a.getLsbD (ws.bits - 1 - i))) ∧
      ∀ b c : Port, exec (.bitrev ws) { s with operands := { a := r, b := b, c := c } } =
        .next { s with operands := { a := r, b := b, c := c }, response := some (.ok (lowBits ws s.operands.a) 0) }

/-- The word 0x61WW00PP is BITSWAP. On an unlocked block with p < W it completes with R[i] = A[p-i] for i <= p, R[i] =
A[i] for p < i < W and every other bit of R 0, R2 = 0, and no state written; with p >= W it faults BAD_INDEX and
changes only FLT. (R142) -/
def Obligations.BitswapMirrorsTheLowBitsOnly : Prop :=
  (∀ (ws : Width) (p : Nat), p < 256 →
    decode (BitVec.ofNat 32 (0x61 * 2 ^ 24 + ws.code * 2 ^ 16 + p)) = .ok (.bitswap ws p)) ∧
  ∀ (ws : Width) (p : Nat) (s : State), s.block.flt = 0 →
    (p < ws.bits → ∃ r : Port, exec (.bitswap ws p) s = .next { s with response := some (.ok r 0) } ∧
      ∀ i : Nat, r.getLsbD i =
        (decide (i < ws.bits) && (if i ≤ p then s.operands.a.getLsbD (p - i) else s.operands.a.getLsbD i))) ∧
    (ws.bits ≤ p → exec (.bitswap ws p) s =
      .next { s with block := { s.block with flt := 2 }, response := some (.fault .badIndex) })

/-- The word 0x62WW00PP is SEXT. On an unlocked block with 1 <= p <= W it completes with R[i] = A[i] for i < p, R[i] =
A[p-1] for p <= i < W and every other bit of R 0, R2 = 0, and no state written; read as a signed W-bit number R is f -
2^p when the field f = A mod 2^p is at least 2^(p-1), else f. With p = 0 or p > W it faults BAD_COUNT and changes only
FLT. (R144) -/
def Obligations.SextExtendsTheFieldToTheWord : Prop :=
  (∀ (ws : Width) (p : Nat), p < 256 →
    decode (BitVec.ofNat 32 (0x62 * 2 ^ 24 + ws.code * 2 ^ 16 + p)) = .ok (.sext ws p)) ∧
  ∀ (ws : Width) (p : Nat) (s : State), s.block.flt = 0 →
    (1 ≤ p → p ≤ ws.bits → ∃ r : Port, exec (.sext ws p) s = .next { s with response := some (.ok r 0) } ∧
      (∀ i : Nat, r.getLsbD i = (decide (i < ws.bits) &&
        (if i < p then s.operands.a.getLsbD i else s.operands.a.getLsbD (p - 1)))) ∧
      (r.setWidth ws.bits).toInt = (if 2 ^ (p - 1) ≤ s.operands.a.toNat % 2 ^ p
        then (s.operands.a.toNat % 2 ^ p : Int) - 2 ^ p else (s.operands.a.toNat % 2 ^ p : Int))) ∧
    (p = 0 ∨ ws.bits < p → exec (.sext ws p) s =
      .next { s with block := { s.block with flt := 4 }, response := some (.fault .badCount) })

/-- For every width: popcount(a) + popcount(not a) = W; popcount(mask(n)) = n for n <= W; popcount of the OR of
disjoint words is the sum; ROL, ROR, BITREV and BITSWAP keep the population count; and BITCNT answers the count of the
bits that are 1. (R72) -/
def Obligations.PopulationCountLaws : Prop :=
  ∀ (ws : Width) (a b : Port),
    (pureR (.bitcnt ws) (~~~a) 0 0).map (fun r => r.toNat + onesCount ws a) = some ws.bits ∧
    (∀ n ≤ ws.bits, (pureR (.maskn ws n) 0 0 0).bind (fun m => pureR (.bitcnt ws) m 0 0) = some (BitVec.ofNat 64 n)) ∧
    (lowBits ws a &&& lowBits ws b = 0 →
      pureR (.bitcnt ws) (a ||| b) 0 0 = some (BitVec.ofNat 64 (onesCount ws a + onesCount ws b))) ∧
    (∀ p < ws.bits,
      (pureR (.rol ws p) a 0 0).bind (fun r => pureR (.bitcnt ws) r 0 0) = pureR (.bitcnt ws) a 0 0 ∧
      (pureR (.ror ws p) a 0 0).bind (fun r => pureR (.bitcnt ws) r 0 0) = pureR (.bitcnt ws) a 0 0 ∧
      (pureR (.bitswap ws p) a 0 0).bind (fun r => pureR (.bitcnt ws) r 0 0) = pureR (.bitcnt ws) a 0 0) ∧
    (pureR (.bitrev ws) a 0 0).bind (fun r => pureR (.bitcnt ws) r 0 0) = pureR (.bitcnt ws) a 0 0 ∧
    pureR (.bitcnt ws) a 0 0 = some (BitVec.ofNat 64 (onesCount ws a))

/-- For every width, every a and every legal p the four laws of R80 hold of the commands. (R80) -/
def Obligations.RotateAndShiftLaws : Prop :=
  ∀ (ws : Width) (a : Port) (p : Nat), p < ws.bits →
    (pureR (.rol ws p) a 0 0).bind (fun r => pureR (.ror ws p) r 0 0) = some (lowBits ws a) ∧
    (pureR (.ror ws p) a 0 0).bind (fun r => pureR (.rol ws p) r 0 0) = some (lowBits ws a) ∧
    (1 ≤ p → ∃ x y, pureR (.shl ws p) a 0 0 = some x ∧ pureR (.shr ws (ws.bits - p)) a 0 0 = some y ∧
      pureR (.rol ws p) a 0 0 = some (x ||| y)) ∧
    (pureR (.rol ws p) a 0 0).map (onesCount ws) = some (onesCount ws a) ∧
    (pureR (.ror ws p) a 0 0).map (onesCount ws) = some (onesCount ws a) ∧
    (pureR (.shl ws p) a 0 0).bind (fun r => pureR (.shr ws p) r 0 0) =
      some (lowBits ws a &&& BitVec.ofNat 64 (2 ^ (ws.bits - p) - 1)) ∧
    (pureR (.shr ws p) a 0 0).bind (fun r => pureR (.shl ws p) r 0 0) =
      some (lowBits ws a &&& ~~~(BitVec.ofNat 64 (2 ^ p - 1)))

/-- For every width and every legal p the five relations of R93 hold of the commands. (R93) -/
def Obligations.MaskRelations : Prop :=
  ∀ (ws : Width) (p : Nat), p < ws.bits →
    pureR (.secmaskle ws p) 0 0 0 = (pureR (.maskn ws p) 0 0 0).map (fun m => lowBits ws (~~~m)) ∧
    (∃ m, pureR (.maskn ws (ws.bits - p)) 0 0 0 = some m ∧ pureR (.secmaskbe ws p) 0 0 0 = some m) ∧
    (∃ m, pureR (.vemaskle ws (ws.bits - 1 - p)) 0 0 0 = some m ∧ pureR (.vemaskbe ws p) 0 0 0 = some m ∧
      (pureR (.vemaskle ws p) 0 0 0).bind (fun x => pureR (.bitrev ws) x 0 0) = some m) ∧
    (∃ m, pureR (.secmaskbe ws p) 0 0 0 = some m ∧
      (pureR (.secmaskle ws p) 0 0 0).bind (fun x => pureR (.bitrev ws) x 0 0) = some m) ∧
    pureR (.secmaskle ws p) 0 0 0 = some ((List.range' p (ws.bits - p)).foldr
      (fun j acc => (pureR (.vemaskle ws j) 0 0 0).getD 0 ||| acc) 0) ∧
    pureR (.secmaskbe ws p) 0 0 0 = some ((List.range' p (ws.bits - p)).foldr
      (fun j acc => (pureR (.vemaskbe ws j) 0 0 0).getD 0 ||| acc) 0) ∧
    (pureR (.secmaskle ws p) 0 0 0).map (onesCount ws) = some (ws.bits - p) ∧
    (pureR (.secmaskbe ws p) 0 0 0).map (onesCount ws) = some (ws.bits - p)

/-- For every width: EXTV of i, c equals EXTR of i, i+c-1 with neither faulting; DEC with a contiguous mask equals
EXTV; DECN is DEC minus 1 mod 2^W for every mask DEC accepts; and DEC after ENCE with the same contiguous mask returns
the masked value. (R105) -/
def Obligations.ExtractionLaws : Prop :=
  ∀ (ws : Width) (a b : Port) (i c : Nat), i < ws.bits → 1 ≤ c → i + c ≤ ws.bits →
    (∃ r, pureR (.extv ws i c) a 0 0 = some r ∧ pureR (.extr ws i (i + c - 1)) a 0 0 = some r ∧
      pureR (.dec ws i) a 0 (BitVec.ofNat 64 (2 ^ c - 1)) = some r) ∧
    (∀ m : Port, lowBits ws m ≠ 0 → i + onesCount ws m ≤ ws.bits →
      ∃ e, pureR (.dec ws i) a 0 m = some e ∧ pureR (.decn ws i) a 0 m = some (lowBits ws (e - 1))) ∧
    (pureR (.ence ws i) a b (BitVec.ofNat 64 (2 ^ c - 1))).bind
      (fun r => pureR (.dec ws i) r 0 (BitVec.ofNat 64 (2 ^ c - 1))) =
        some (b &&& BitVec.ofNat 64 (2 ^ c - 1))

/-- For every width, every a and b and every contiguous mask m = mask(n) with n >= 1 and p + n <= W, the five laws of
R115 hold of the commands: DEC after ENCE, DEC after ENCF into a zero field, DECN after ENCN of a value whose code
fits, a field whose bit-space does not meet the inserted one reads as before, and R2 of insert and extract are both p
+ n. (R115) -/
def Obligations.InsertThenExtractRoundTrip : Prop :=
  ∀ (ws : Width) (a b : Port) (p n : Nat), 1 ≤ n → p + n ≤ ws.bits → ∀ m : Port, m = BitVec.ofNat 64 (2 ^ n - 1) →
    (pureR (.ence ws p) a b m).bind (fun r => pureR (.dec ws p) r 0 m) = some (b &&& m) ∧
    (a &&& (m <<< p) = 0 →
      (pureR (.encf ws p) a b m).bind (fun r => pureR (.dec ws p) r 0 m) = some (b &&& m)) ∧
    ((b.toNat + 1) % 2 ^ ws.bits ≤ m.toNat →
      (pureR (.encn ws p) a b m).bind (fun r => pureR (.decn ws p) r 0 m) = some (lowBits ws b)) ∧
    (∀ (p' : Nat) (m' : Port), lowBits ws (lowBits ws m' <<< p') &&& (m <<< p) = 0 →
      (pureR (.ence ws p) a b m).bind (fun r => pureR (.dec ws p') r 0 m') = pureR (.dec ws p') a 0 m') ∧
    (pureResult (.ence ws p) ⟨a, b, m⟩).map Prod.snd = some (BitVec.ofNat 8 (p + n)) ∧
    (pureResult (.encf ws p) ⟨a, b, m⟩).map Prod.snd = some (BitVec.ofNat 8 (p + n)) ∧
    (pureResult (.encn ws p) ⟨a, b, m⟩).map Prod.snd = some (BitVec.ofNat 8 (p + n)) ∧
    (pureResult (.dec ws p) ⟨a, b, m⟩).map Prod.snd = some (BitVec.ofNat 8 (p + n)) ∧
    (pureResult (.decn ws p) ⟨a, b, m⟩).map Prod.snd = some (BitVec.ofNat 8 (p + n))

/-- For every width and every legal operand the five laws of R145 hold of the commands. (R145) -/
def Obligations.AuxiliaryWordLaws : Prop :=
  ∀ (ws : Width) (a : Port),
    (pureR (.bitrev ws) a 0 0).bind (fun r => pureR (.bitrev ws) r 0 0) = some (lowBits ws a) ∧
    (∀ p < ws.bits, (pureR (.bitswap ws p) a 0 0).bind (fun r => pureR (.bitswap ws p) r 0 0) = some (lowBits ws a)) ∧
    (∃ r, pureR (.bitrev ws) a 0 0 = some r ∧ pureR (.bitswap ws (ws.bits - 1)) a 0 0 = some r ∧
      ∀ i < ws.bits, r.getLsbD i = a.getLsbD (ws.bits - 1 - i)) ∧
    (∀ i < ws.bits, pureR (.bitrev ws) (BitVec.ofNat 64 (2 ^ i)) 0 0 = some (BitVec.ofNat 64 (2 ^ (ws.bits - 1 - i))) ∧
      pureR (.vemaskbe ws i) 0 0 0 = some (BitVec.ofNat 64 (2 ^ (ws.bits - 1 - i)))) ∧
    (∀ p, 1 ≤ p → p ≤ ws.bits → ∃ r, pureR (.sext ws p) a 0 0 = some r ∧ pureR (.sext ws p) r 0 0 = some r ∧
      r &&& BitVec.ofNat 64 (2 ^ p - 1) = a &&& BitVec.ofNat 64 (2 ^ p - 1)) ∧
    (pureR (.bitrev ws) a 0 0).map (onesCount ws) = some (onesCount ws a) ∧
    (∀ p < ws.bits, (pureR (.bitswap ws p) a 0 0).map (onesCount ws) = some (onesCount ws a))

/-- For an encoder width W, any list of plain and noneable fields each of at least one bit whose code fits it, of at
most W bits together, and any unlocked state: HINIT, the fields' HENC or HENCN in order, and HGET complete without a
fault, and HGET returns the packed word (first field at the least significant end) and the total width; then HSEED of
that word and the matching HDEC or HDECN in order complete, and the k-th returns the k-th value. (R134) -/
def Obligations.SequentialRoundTrip : Prop :=
  ∀ (ws : Width) (fs : List Field) (s : State), encoderWidth ws = true → s.block.flt = 0 →
    (∀ f ∈ fs, f.fits ws) → totalBits fs ≤ ws.bits →
    ∃ (packed unpacked : List Response) (t u : State),
      serveAll ([.command (encode .hinit) ⟨0, 0, 0⟩] ++ fs.map (Field.encodeInput ws) ++
        [.command (encode (.hget ws)) ⟨0, 0, 0⟩]) s = some (packed, t) ∧
      (∀ x ∈ packed, statusOf x = 0) ∧
      packed.getLast? = some (.ok (BitVec.ofNat 64 (packedWord ws fs)) (BitVec.ofNat 8 (totalBits fs))) ∧
      serveAll ([.command (encode (.hseed ws)) ⟨BitVec.ofNat 64 (packedWord ws fs), 0, 0⟩] ++
        fs.map (Field.decodeInput ws)) t = some (.ok 0 0 :: unpacked, u) ∧
      unpacked.map resultOfResponse = fs.map (fun f => some f.value)

/-- From any unlocked state, for an encoder width W and 1 <= k <= W, HSEED.W A=a then HSKIP.W k completes with H = a
mod 2^W, CUR = k, the skipped bits returned; a HENC.W that then completes changes no bit of H below k. (rests on
45_bitfield_encoder_fsm.md R135, 30_encoding.md R63) -/
def Obligations.SeedAndSkipRestoreHandleAndCursor : Prop :=
  ∀ (ws : Width) (a : Port) (k : Nat) (s : State), encoderWidth ws = true → s.block.flt = 0 → 1 ≤ k → k ≤ ws.bits →
    ∃ t, serveAll [.command (encode (.hseed ws)) ⟨a, 0, 0⟩, pseudoHskip ws k] s =
        some ([.ok 0 0, .ok (BitVec.ofNat 64 (a.toNat % 2 ^ k)) (BitVec.ofNat 8 k)], t) ∧
      t.block = { h := lowBits ws a, cur := BitVec.ofNat 7 k, flt := 0 } ∧
      ∀ (ops : Operands) (r : Port) (r2 : SmallResult) (u : State),
        exec (.henc ws) { t with operands := ops } = .next u → u.response = some (.ok r r2) →
        ∀ i < k, u.block.h.getLsbD i = a.getLsbD i

/-- For every list of command inputs served from an unlocked state: every command is answered, there is one response for
each, and the final FLT is not 0 exactly when some response has ST not 0; the final FLT is then the status of the first
such response and every later response is LOCKED. Leaving resets out of the list is the model's own reading of the rule
(notes/assumptions/10.md). (rests on 70_reset_and_hazards.md R184, 60_exceptions.md R155) -/
def Obligations.RunWentWrongExactlyWhenAResponseFailed : Prop :=
  ∀ (xs : List HostInput) (s : State), (∀ x ∈ xs, isCommand x = true) → s.block.flt = 0 →
    ∃ (rs : List Response) (t : State), serveAll xs s = some (rs, t) ∧ rs.length = xs.length ∧
      (WentWrong t ↔ ∃ x ∈ rs, statusOf x ≠ 0) ∧
      (∀ (done later : List Response) (x : Response), rs = done ++ x :: later →
        (∀ y ∈ done, statusOf y = 0) → statusOf x ≠ 0 →
        t.block.flt = statusOf x ∧ ∀ y ∈ later, y = .locked)

/-- For every state and next host input x: step answers a next state whose block and response are those that blockStep
gives for x and the block alone, with x taken off the inputs; the operand ports show the presented values after a command
and are as they were after a reset. The operand ports, the response and the inputs are the model's own carriers
(notes/assumptions/1.md to 3.md). (rests on 10_state.md R20, 10_state.md R31, 00_scope.md R12) -/
def Obligations.StepIsTheBlockMachine : Prop :=
  ∀ (s : State) (x : HostInput) (rest : List HostInput), s.pending = x :: rest →
    ∃ t, step s = .next t ∧ (t.response, t.block) = blockStep x s.block ∧ t.pending = rest ∧
      (∀ cmd ops, x = .command cmd ops → t.operands = ops) ∧ (x = .reset → t.operands = s.operands)

/-- For every list of inputs, commands and resets, serving them from any state gives the responses and the block that
blockRun gives from the block alone, and leaves the later inputs as they were. The carriers around the block are the
model's own (notes/assumptions/1.md to 3.md). (rests on 10_state.md R20, 10_state.md R31, 70_reset_and_hazards.md R184) -/
def Obligations.RunIsTheBlockMachineRun : Prop :=
  ∀ (xs : List HostInput) (s : State), ∃ t, serveAll xs s = some ((blockRun xs s.block).1, t) ∧
    t.block = (blockRun xs s.block).2 ∧ t.pending = s.pending
end

