-- ==== Sys2Proof/Laws/Decode.lean ====
section
/-! SUPPORT. Laws/Decode.lean: the fields of a packed word (30_encoding.md R51) and the formats' outcomes. -/

namespace Sys2Proof

theorem opcodeOf_lt (i : Instr) : opcodeOf i < 256 := by cases i <;> simp [opcodeOf]

theorem Width.code_lt (ws : Width) : ws.code < 4 := by cases ws <;> decide

@[simp] theorem widthOfCode_code (ws : Width) : widthOfCode ws.code = ws := by cases ws <;> rfl

theorem code_widthOfCode {n : Nat} (h : n < 4) : (widthOfCode n).code = n := by
  have : n = 0 ∨ n = 1 ∨ n = 2 ∨ n = 3 := by omega
  rcases this with rfl | rfl | rfl | rfl <;> rfl

theorem encoderWidth_iff (ws : Width) : encoderWidth ws = true ↔ 2 ≤ ws.code := by cases ws <;> decide

theorem smallOperandFits_iff (n : Nat) : smallOperandFits n = true ↔ n < 256 := by simp [smallOperandFits]

section Pack

variable {op ws q p : Nat}

/-- A packed word as a number, when every part fits its field. -/
theorem toNat_packWord (hop : op < 256) (hws : ws < 4) (hq : q < 256) (hp : p < 256) :
    (packWord op ws q p).toNat = op * 2 ^ 24 + ws * 2 ^ 16 + q * 2 ^ 8 + p := by
  rw [packWord, BitVec.toNat_ofNat]
  omega

theorem zField_packWord (hop : op < 256) (hws : ws < 4) (hq : q < 256) (hp : p < 256) :
    zField (packWord op ws q p) = 0 := by
  rw [zField, cmdBits, toNat_packWord hop hws hq hp]; omega

theorem opField_packWord (hop : op < 256) (hws : ws < 4) (hq : q < 256) (hp : p < 256) :
    opField (packWord op ws q p) = op := by
  rw [opField, cmdBits, toNat_packWord hop hws hq hp]; omega

theorem wsField_packWord (hop : op < 256) (hws : ws < 4) (hq : q < 256) (hp : p < 256) :
    wsField (packWord op ws q p) = ws := by
  rw [wsField, cmdBits, toNat_packWord hop hws hq hp]; omega

theorem qField_packWord (hop : op < 256) (hws : ws < 4) (hq : q < 256) (hp : p < 256) :
    qField (packWord op ws q p) = q := by
  rw [qField, cmdBits, toNat_packWord hop hws hq hp]; omega

theorem pField_packWord (hop : op < 256) (hws : ws < 4) (hq : q < 256) (hp : p < 256) :
    pField (packWord op ws q p) = p := by
  rw [pField, cmdBits, toNat_packWord hop hws hq hp]; omega

/-- Decoding a packed word is decoding its parts. -/
theorem decode_packWord (hop : op < 256) (hws : ws < 4) (hq : q < 256) (hp : p < 256) :
    decode (packWord op ws q p) = decodeOp op ws q p := by
  rw [decode, zField_packWord hop hws hq hp, opField_packWord hop hws hq hp, wsField_packWord hop hws hq hp,
    qField_packWord hop hws hq hp, pField_packWord hop hws hq hp]
  rfl

end Pack

/-- The fields of a word bound and rebuild it. -/
theorem packWord_fields (cmd : CmdWord) (hz : zField cmd = 0) :
    packWord (opField cmd) (wsField cmd) (qField cmd) (pField cmd) = cmd := by
  have h := cmd.isLt
  apply BitVec.eq_of_toNat_eq
  rw [packWord, BitVec.toNat_ofNat]
  simp only [opField, zField, wsField, qField, pField, cmdBits] at *
  omega

theorem wsField_lt (cmd : CmdWord) : wsField cmd < 4 := Nat.mod_lt _ (by decide)

theorem qField_lt (cmd : CmdWord) : qField cmd < 256 := Nat.mod_lt _ (by decide)

theorem pField_lt (cmd : CmdWord) : pField cmd < 256 := Nat.mod_lt _ (by decide)

section Formats

variable {ws q p : Nat} {i : Instr}

theorem formatN_ok {k : Width → Instr} (h : formatN ws q p k = .ok i) :
    p = 0 ∧ q = 0 ∧ i = k (widthOfCode ws) := by
  unfold formatN at h
  split at h <;> try cases h
  split at h <;> cases h
  exact ⟨by omega, by omega, rfl⟩

theorem formatP_ok {k : Width → Nat → Instr} (h : formatP ws q p k = .ok i) :
    q = 0 ∧ i = k (widthOfCode ws) p := by
  unfold formatP at h
  split at h <;> cases h
  exact ⟨by omega, rfl⟩

theorem formatPQ_ok {k : Width → Nat → Nat → Instr} (h : formatPQ ws q p k = .ok i) :
    i = k (widthOfCode ws) p q := by
  cases h
  rfl

theorem formatH_ok {k : Width → Instr} (h : formatH ws q p k = .ok i) :
    p = 0 ∧ q = 0 ∧ 2 ≤ ws ∧ i = k (widthOfCode ws) := by
  unfold formatH at h
  split at h <;> try cases h
  split at h <;> try cases h
  split at h <;> cases h
  exact ⟨by omega, by omega, by omega, rfl⟩

theorem formatZ_ok {j : Instr} (h : formatZ ws q p j = .ok i) : p = 0 ∧ q = 0 ∧ ws = 0 ∧ i = j := by
  unfold formatZ at h
  split at h <;> try cases h
  split at h <;> try cases h
  split at h <;> cases h
  exact ⟨by omega, by omega, by omega, rfl⟩

end Formats

end Sys2Proof
end

