-- ==== Sys2Proof/Laws/Primitives.lean ====
section
/-! SUPPORT. Laws/Primitives.lean: the bits of each primitive's value (00_scope.md R10), and the facts about counts. -/

namespace Sys2Proof.Machine

variable {w : Nat}

theorem shlW_eq (v : Word w) (n : Nat) : shlW v n = v <<< n := by
  apply BitVec.eq_of_toNat_eq
  simp [shlW, Nat.shiftLeft_eq]

theorem shrW_eq (v : Word w) (n : Nat) : shrW v n = v >>> n := by
  apply BitVec.eq_of_toNat_eq
  have h : v.toNat / 2 ^ n < 2 ^ w := lt_of_le_of_lt (Nat.div_le_self _ _) v.isLt
  simp [shrW, Nat.shiftRight_eq_div_pow, Nat.mod_eq_of_lt h]

theorem notW_eq (v : Word w) : notW v = ~~~v := by
  apply BitVec.eq_of_toNat_eq
  have h : 2 ^ w - 1 - v.toNat < 2 ^ w := by have := Nat.two_pow_pos w; omega
  simp [notW, Nat.mod_eq_of_lt h]

/-- The signed reading of a word. -/
theorem sgnW_eq (v : Word w) : sgnW v = v.toInt := by
  rw [sgnW, BitVec.toInt_eq_toNat_cond]
  rcases w with _ | w
  · simp [BitVec.toNat_of_zero_length]
  · have h : 2 ^ (w + 1) = 2 * 2 ^ w := by rw [Nat.pow_succ]; omega
    have h2 : (2 : Int) ^ (w + 1) = ((2 ^ (w + 1) : Nat) : Int) := by norm_cast
    rw [h2]
    by_cases hv : v.toNat < 2 ^ w
    · rw [if_pos (by simpa using hv), if_pos (by omega)]
    · rw [if_neg (by simpa using hv), if_neg (by omega)]

@[simp] theorem getLsbD_shlW (v : Word w) (n i : Nat) :
    (shlW v n).getLsbD i = (decide (n ≤ i ∧ i < w) && v.getLsbD (i - n)) := by
  rw [shlW_eq, BitVec.getLsbD_shiftLeft]
  by_cases h1 : i < w <;> by_cases h2 : i < n <;> simp [h1, h2]; omega

@[simp] theorem getLsbD_shrW (v : Word w) (n i : Nat) : (shrW v n).getLsbD i = v.getLsbD (n + i) := by
  rw [shrW_eq, BitVec.getLsbD_ushiftRight]

@[simp] theorem getLsbD_notW (v : Word w) (i : Nat) :
    (notW v).getLsbD i = (decide (i < w) && !v.getLsbD i) := by
  rw [notW_eq, BitVec.getLsbD_not]

@[simp] theorem getLsbD_maskW (n i : Nat) : (maskW w n).getLsbD i = decide (i < n ∧ i < w) := by
  simp [maskW, BitVec.getLsbD_ofNat, Nat.testBit_two_pow_sub_one, and_comm]

@[simp] theorem getLsbD_ones (i : Nat) : (ones w).getLsbD i = decide (i < w) := by
  simp [ones, BitVec.getLsbD_ofNat, Nat.testBit_two_pow_sub_one]

theorem bitSum_lt (f : Nat → Bool) (n : Nat) : bitSum f n < 2 ^ n := by
  induction n with
  | zero => simp [bitSum]
  | succ n ih => cases hf : f n <;> simp [bitSum, hf, Nat.pow_succ] <;> omega

theorem testBit_bitSum (f : Nat → Bool) (n i : Nat) : (bitSum f n).testBit i = (decide (i < n) && f i) := by
  induction n with
  | zero => simp [bitSum]
  | succ n ih =>
    have hlt := bitSum_lt f n
    rw [bitSum, Nat.add_comm, Nat.mul_comm, Nat.testBit_two_pow_mul_add _ hlt]
    split
    · rename_i hi
      rw [ih]
      simp [hi, Nat.lt_succ_of_lt hi]
    · rename_i hi
      rcases Nat.lt_or_ge n i with h | h
      · have h2 : ¬ i < n + 1 := by omega
        have : i - n ≠ 0 := by omega
        cases f n <;> simp [h2, Nat.testBit_eq_decide_div_mod_eq, Nat.div_eq_of_lt, Nat.one_lt_two_pow this]
      · have : i = n := by omega
        subst this
        cases f i <;> simp

@[simp] theorem getLsbD_wordOfBits (f : Nat → Bool) (i : Nat) :
    (wordOfBits w f).getLsbD i = (decide (i < w) && f i) := by
  rw [wordOfBits, BitVec.getLsbD_ofNat, testBit_bitSum]
  by_cases h : i < w <;> simp [h]

/-! ## Counts -/

theorem popcount_le (v : Word w) : popcount v ≤ w := by
  have := List.countP_le_length (p := fun i => v.getLsbD i) (l := List.range w)
  simpa [popcount] using this

theorem popcount_pos {v : Word w} (h : v ≠ 0) : 0 < popcount v := by
  rw [popcount, List.countP_pos_iff]
  by_contra hn
  push Not at hn
  apply h
  apply BitVec.eq_of_getLsbD_eq
  intro i hi
  have := hn i (List.mem_range.mpr hi)
  simpa using this

theorem bitlen_le_iff (v k : Nat) : bitlen v ≤ k ↔ v < 2 ^ k := by
  unfold bitlen
  split
  · rename_i h; subst h; simp
  · rename_i h; rw [Nat.succ_le_iff, Nat.log2_lt h]

theorem bitlen_le_of_lt {v k : Nat} (h : v < 2 ^ k) : bitlen v ≤ k := (bitlen_le_iff v k).mpr h

theorem bitlen_pos {v : Nat} (h : v ≠ 0) : 0 < bitlen v := by simp [bitlen, h]

/-! ## The word functions of the families -/

/-- Bit `i` of a left rotate is bit `(i - p) mod W` of the word. -/
theorem getLsbD_rotateLeft (v : Word w) (p i : Nat) (hp : p < w) :
    (rotateLeft v p).getLsbD i =
      (decide (i < w) && if p ≤ i then v.getLsbD (i - p) else v.getLsbD (w - p + i)) := by
  unfold rotateLeft
  split
  · rename_i h
    subst h
    by_cases hi : i < w
    · simp [hi]
    · simp [hi, BitVec.getLsbD_of_ge v i (by omega)]
  · rename_i h
    rw [BitVec.getLsbD_or, getLsbD_shlW, getLsbD_shrW]
    by_cases hi : i < w <;> by_cases hpi : p ≤ i
    · simp [hi, hpi, BitVec.getLsbD_of_ge v (w - p + i) (by omega)]
    · simp [hi, hpi]
    · simp [hi, BitVec.getLsbD_of_ge v (w - p + i) (by omega)]
    · omega

/-- Bit `i` of a right rotate is bit `(i + p) mod W` of the word. -/
theorem getLsbD_rotateRight (v : Word w) (p i : Nat) (hp : p < w) :
    (rotateRight v p).getLsbD i =
      (decide (i < w) && if i + p < w then v.getLsbD (i + p) else v.getLsbD (i + p - w)) := by
  unfold rotateRight
  split
  · rename_i h
    subst h
    by_cases hi : i < w
    · simp [hi]
    · simp [hi, BitVec.getLsbD_of_ge v i (by omega)]
  · rename_i h
    rw [BitVec.getLsbD_or, getLsbD_shlW, getLsbD_shrW]
    by_cases hi : i < w <;> by_cases hpi : i + p < w
    · simp [hi, hpi, Nat.add_comm p i]
    · rw [BitVec.getLsbD_of_ge v (p + i) (by omega)]
      have h1 : w - p ≤ i := by omega
      have h2 : i - (w - p) = i + p - w := by omega
      simp [hi, hpi, h1, h2]
    · omega
    · simp [hi, BitVec.getLsbD_of_ge v (p + i) (by omega)]

@[simp] theorem getLsbD_bitReverse (v : Word w) (i : Nat) :
    (bitReverse v).getLsbD i = (decide (i < w) && v.getLsbD (w - 1 - i)) := by simp [bitReverse]

@[simp] theorem getLsbD_bitSwap (v : Word w) (p i : Nat) :
    (bitSwap v p).getLsbD i = (decide (i < w) && if i ≤ p then v.getLsbD (p - i) else v.getLsbD i) := by
  simp [bitSwap]

/-- A sign-extended field: the field's own bits, then its top bit up to `W`. -/
theorem getLsbD_signExtend (v : Word w) (p i : Nat) (h1 : 1 ≤ p) (h2 : p ≤ w) :
    (signExtend v p).getLsbD i =
      (decide (i < w) && if i < p then v.getLsbD i else v.getLsbD (p - 1)) := by
  have hsign : (v &&& maskW w p).getLsbD (p - 1) = v.getLsbD (p - 1) := by
    have h3 : p - 1 < p ∧ p - 1 < w := by omega
    simp [h3]
  unfold signExtend
  rw [hsign]
  by_cases hi : i < w
  · by_cases hip : i < p <;> cases v.getLsbD (p - 1) <;> simp [hi, hip, -BitVec.getLsbD_eq_getElem]
  · cases v.getLsbD (p - 1) <;> simp [hi]

end Sys2Proof.Machine
end

