-- ==== Sys2Proof/Laws/State.lean ====
section
/-! SUPPORT. Laws/State.lean: what each update of the state leaves in each field. -/

namespace Sys2Proof.Machine

variable (s : State) (b : Block) (reply : Reply) (cause : FaultCause) (ans : Answer) (ops : Operands) (rest : List HostInput)

@[simp] theorem reset_block : State.reset.block = Block.reset := rfl
@[simp] theorem reset_response : State.reset.response = none := rfl
@[simp] theorem reset_pending : State.reset.pending = [] := rfl
@[simp] theorem reset_operands : State.reset.operands = { a := 0, b := 0, c := 0 } := rfl
@[simp] theorem blockReset_h : Block.reset.h = 0 := rfl
@[simp] theorem blockReset_cur : Block.reset.cur = 0 := rfl
@[simp] theorem blockReset_flt : Block.reset.flt = 0 := rfl

@[simp] theorem raiseFault_h : (raiseFault cause b).block.h = b.h := rfl
@[simp] theorem raiseFault_cur : (raiseFault cause b).block.cur = b.cur := rfl
@[simp] theorem raiseFault_flt : (raiseFault cause b).block.flt = latch b.flt (faultCode cause) := rfl
@[simp] theorem raiseFault_response : (raiseFault cause b).response = .fault cause := rfl

@[simp] theorem answerLocked_block : (answerLocked b).block = b := rfl
@[simp] theorem answerLocked_response : (answerLocked b).response = .locked := rfl

@[simp] theorem complete_h : (complete ans b).block.h = ans.h := rfl
@[simp] theorem complete_cur : (complete ans b).block.cur = ans.cur := rfl
@[simp] theorem complete_flt : (complete ans b).block.flt = b.flt := rfl
@[simp] theorem complete_response : (complete ans b).response = .ok ans.r ans.r2 := rfl

/-- What a delivered reply leaves in the state. -/
theorem deliver_eq : deliver s reply = .next { s with block := reply.block, response := some reply.response } := rfl

@[simp] theorem acceptCommand_block : (acceptCommand ops rest s).block = s.block := rfl
@[simp] theorem acceptCommand_response : (acceptCommand ops rest s).response = s.response := rfl
@[simp] theorem acceptCommand_operands : (acceptCommand ops rest s).operands = ops := rfl
@[simp] theorem acceptCommand_pending : (acceptCommand ops rest s).pending = rest := rfl

@[simp] theorem acceptReset_block : (acceptReset rest s).block = Block.reset := rfl
@[simp] theorem acceptReset_response : (acceptReset rest s).response = none := rfl
@[simp] theorem acceptReset_operands : (acceptReset rest s).operands = s.operands := rfl
@[simp] theorem acceptReset_pending : (acceptReset rest s).pending = rest := rfl

@[simp] theorem withFetchWord_block (nbits w : Nat) : (s.withFetchWord nbits w).block = s.block := rfl
@[simp] theorem withFetchWord_response (nbits w : Nat) : (s.withFetchWord nbits w).response = s.response := rfl
@[simp] theorem withFetchWord_operands (nbits w : Nat) : (s.withFetchWord nbits w).operands = s.operands := rfl
@[simp] theorem withFetchWord_pending (nbits w : Nat) :
    (s.withFetchWord nbits w).pending = wordInput nbits w s :: s.pending := rfl

@[simp] theorem pureAnswer_r (r : Port) (r2 : Nat) : (pureAnswer b r r2).r = r := rfl
@[simp] theorem pureAnswer_r2 (r : Port) (r2 : Nat) : (pureAnswer b r r2).r2 = smallR2 r2 := rfl
@[simp] theorem pureAnswer_h (r : Port) (r2 : Nat) : (pureAnswer b r r2).h = b.h := rfl
@[simp] theorem pureAnswer_cur (r : Port) (r2 : Nat) : (pureAnswer b r r2).cur = b.cur := rfl

@[simp] theorem encoderAnswer_r (r h : Port) (r2 cur : Nat) : (encoderAnswer r r2 h cur).r = r := rfl
@[simp] theorem encoderAnswer_r2 (r h : Port) (r2 cur : Nat) : (encoderAnswer r r2 h cur).r2 = smallR2 r2 := rfl
@[simp] theorem encoderAnswer_h (r h : Port) (r2 cur : Nat) : (encoderAnswer r r2 h cur).h = h := rfl
@[simp] theorem encoderAnswer_cur (r h : Port) (r2 cur : Nat) :
    (encoderAnswer r r2 h cur).cur = BitVec.ofNat 7 cur := rfl

end Sys2Proof.Machine
end

