-- ==== Sys2Proof/Laws/Ops.lean ====
section
/-! SUPPORT. Laws/Ops.lean: what each shared operation can do, said once. -/

namespace Sys2Proof.Machine

/-! ## Operands -/

section Operands

variable (ws : Width) (ops : Operands) (b : Block)

@[simp] theorem bits_le : ws.bits ≤ 64 := by cases ws <;> decide

theorem bits_pos : 0 < ws.bits := by cases ws <;> decide

theorem bits_eq_shift : ws.bits = 8 <<< ws.code := by cases ws <;> rfl

@[simp] theorem getLsbD_truncPort (v : Port) (i : Nat) :
    (truncPort ws v).getLsbD i = (decide (i < ws.bits) && v.getLsbD i) := by simp [truncPort]

@[simp] theorem getLsbD_opA (i : Nat) :
    (opA ws ops).getLsbD i = (decide (i < ws.bits) && ops.a.getLsbD i) := getLsbD_truncPort ws _ i

@[simp] theorem getLsbD_opB (i : Nat) :
    (opB ws ops).getLsbD i = (decide (i < ws.bits) && ops.b.getLsbD i) := getLsbD_truncPort ws _ i

@[simp] theorem getLsbD_opM (i : Nat) :
    (opM ws ops).getLsbD i = (decide (i < ws.bits) && ops.c.getLsbD i) := getLsbD_truncPort ws _ i

@[simp] theorem getLsbD_handleLow (i : Nat) :
    (handleLow ws b).getLsbD i = (decide (i < ws.bits) && b.h.getLsbD i) := getLsbD_truncPort ws _ i

@[simp] theorem toNat_truncPort (v : Port) : (truncPort ws v).toNat = v.toNat % 2 ^ ws.bits := by
  simp [truncPort]

@[simp] theorem getLsbD_zext64 (v : Word ws.bits) (i : Nat) : (zext64 v).getLsbD i = v.getLsbD i := by
  by_cases h : i < 64
  · simp [zext64, h]
  · have := bits_le ws
    simp [zext64, h, BitVec.getLsbD_of_ge v i (by omega)]

@[simp] theorem toNat_zext64 (v : Word ws.bits) : (zext64 v).toNat = v.toNat := by
  have h : v.toNat < 2 ^ 64 := lt_of_lt_of_le v.isLt (Nat.pow_le_pow_right (by decide) (bits_le ws))
  simpa [zext64] using h

/-- The handle with its low part replaced: below `W` the new word, from `W` up the old handle. -/
theorem getLsbD_handleWithLow (v : Word ws.bits) (i : Nat) :
    (handleWithLow ws b v).getLsbD i = if i < ws.bits then v.getLsbD i else b.h.getLsbD i := by
  rw [handleWithLow, BitVec.getLsbD_or, BitVec.getLsbD_shiftLeft, BitVec.getLsbD_ushiftRight, getLsbD_zext64]
  by_cases h : i < ws.bits
  · simp [h]
  · rw [BitVec.getLsbD_of_ge v i (by omega)]
    have h2 : ws.bits + (i - ws.bits) = i := by omega
    by_cases h3 : i < 64
    · simp [h, h2, h3]
    · simp [h, h3, BitVec.getLsbD_of_ge b.h i (by omega)]

/-- `lowBits` is the zero-extended truncation. -/
theorem lowBits_eq (v : Port) : lowBits ws v = zext64 (truncPort ws v) := by
  apply BitVec.eq_of_toNat_eq
  rw [toNat_zext64, toNat_truncPort, lowBits, BitVec.toNat_ofNat, Nat.mod_eq_of_lt]
  exact lt_of_le_of_lt (Nat.mod_le _ _) v.isLt

/-- The population count of a truncated port is the sum of its low bits. -/
theorem popcount_truncPort (v : Port) : popcount (truncPort ws v) = onesCount ws v := by
  have key : ∀ l : List Nat, (∀ i ∈ l, i < ws.bits) →
      l.countP (fun i => (truncPort ws v).getLsbD i) = (l.map fun i => (v.getLsbD i).toNat).sum := by
    intro l
    induction l with
    | nil => intro _; rfl
    | cons i l ih =>
      intro h
      have hi : i < ws.bits := h i (by simp)
      have hl := ih fun j hj => h j (by simp [hj])
      rw [List.countP_cons, hl, List.map_cons, List.sum_cons, getLsbD_truncPort]
      cases hv : v.getLsbD i <;> simp [hi]
      omega
  exact key _ fun i hi => List.mem_range.mp hi

end Operands

/-! ## Field operations -/

section Fields

variable {w : Nat} (v b m : Word w) (p i : Nat)

theorem getLsbD_extractField :
    (extractField v m p).getLsbD i = (v.getLsbD (p + i) && m.getLsbD i) := by
  simp [extractField]

theorem getLsbD_fieldBits :
    (fieldBits b m p).getLsbD i = (decide (p ≤ i ∧ i < w) && (b.getLsbD (i - p) && m.getLsbD (i - p))) := by
  simp [fieldBits]

/-- Clear-then-set: under the moved mask the value's bit, elsewhere the word's own. -/
theorem getLsbD_insertField :
    (insertField v b m p).getLsbD i = (decide (i < w) &&
      if p ≤ i ∧ m.getLsbD (i - p) = true then b.getLsbD (i - p) else v.getLsbD i) := by
  rw [insertField, BitVec.getLsbD_or, BitVec.getLsbD_and, getLsbD_notW, getLsbD_shlW, getLsbD_fieldBits]
  by_cases hi : i < w <;> by_cases hp : p ≤ i <;> cases m.getLsbD (i - p) <;>
    simp [hi, hp, -BitVec.getLsbD_eq_getElem]

theorem getLsbD_orField :
    (orField v b m p).getLsbD i =
      (v.getLsbD i || (decide (p ≤ i ∧ i < w) && (b.getLsbD (i - p) && m.getLsbD (i - p)))) := by
  rw [orField, BitVec.getLsbD_or, getLsbD_fieldBits]

theorem noneableCode_eq : noneableCode b = b + 1 := by
  apply BitVec.eq_of_toNat_eq
  simp [noneableCode]

theorem noneableValue_eq : noneableValue v = v - 1 := by
  have h := Nat.two_pow_pos w
  apply BitVec.eq_of_toNat_eq
  rcases Nat.eq_zero_or_pos w with h0 | h0
  · subst h0; simp [BitVec.toNat_of_zero_length]
  · have h1 : 1 < 2 ^ w := Nat.one_lt_two_pow (by omega)
    have h2 : (1 : Word w).toNat = 1 := by simp [Nat.mod_eq_of_lt h1]
    rw [noneableValue, BitVec.toNat_sub, BitVec.toNat_ofNat, h2]
    congr 1
    omega

/-- Decoding a noneable code undoes encoding it. -/
theorem noneableValue_noneableCode : noneableValue (noneableCode b) = b := by
  rw [noneableValue_eq, noneableCode_eq]; simp

end Fields

/-! ## The frame of a command -/

section Frame

variable (b : Block) (tests : List (Bool × FaultCause)) (ans : Answer)

@[simp] theorem firstFault_nil : firstFault [] = none := rfl

@[simp] theorem firstFault_cons (failed : Bool) (cause : FaultCause) (rest : List (Bool × FaultCause)) :
    firstFault ((failed, cause) :: rest) = if failed then some cause else firstFault rest := rfl

@[simp] theorem locked_iff : locked b = true ↔ b.flt ≠ 0 := by simp [locked]

@[simp] theorem locked_false_iff : locked b = false ↔ b.flt = 0 := by simp [locked]

/-- A locked block answers LOCKED, whatever the tests. -/
theorem perform_of_locked (h : b.flt ≠ 0) : perform b tests ans = answerLocked b := by
  simp [perform, (locked_iff b).mpr h]

/-- On an unlocked block the first failing test is the fault. -/
theorem perform_of_fault {cause : FaultCause} (h : b.flt = 0) (hf : firstFault tests = some cause) :
    perform b tests ans = raiseFault cause b := by
  simp [perform, locked, h, hf]

/-- On an unlocked block with no failing test the command completes. -/
theorem perform_of_complete (h : b.flt = 0) (hf : firstFault tests = none) :
    perform b tests ans = complete ans b := by
  simp [perform, locked, h, hf]

/-- Everything a command can do: LOCKED, its first failing test's fault, or its effect. -/
theorem perform_cases :
    (b.flt ≠ 0 ∧ perform b tests ans = answerLocked b) ∨
    (b.flt = 0 ∧ ∃ cause, firstFault tests = some cause ∧ perform b tests ans = raiseFault cause b) ∨
    (b.flt = 0 ∧ firstFault tests = none ∧ perform b tests ans = complete ans b) := by
  by_cases hl : b.flt = 0
  · cases hf : firstFault tests with
    | some cause => exact .inr (.inl ⟨hl, cause, rfl, perform_of_fault b tests ans hl hf⟩)
    | none => exact .inr (.inr ⟨hl, rfl, perform_of_complete b tests ans hl hf⟩)
  · exact .inl ⟨hl, perform_of_locked b tests ans hl⟩

/-- The latch of an unlocked block takes the code. -/
@[simp] theorem latch_zero (code : BitVec 4) : latch 0#4 code = code := rfl

theorem faultCode_ne_zero (cause : FaultCause) : faultCode cause ≠ 0 := by cases cause <;> decide

theorem faultCode_le_six (cause : FaultCause) : (faultCode cause).toNat ≤ 6 := by cases cause <;> decide

/-- Every reply is `perform` of some tests and some answer, by definition. -/
theorem replyTo_eq_perform (i : Instr) (ops : Operands) (b : Block) :
    ∃ tests ans, replyTo i ops b = perform b tests ans := by
  cases i <;> first | exact ⟨_, _, rfl⟩ | exact ⟨[], _, rfl⟩

/-- A locked block answers LOCKED to every command. -/
theorem replyTo_of_locked (i : Instr) (ops : Operands) {b : Block} (h : b.flt ≠ 0) : replyTo i ops b = answerLocked b := by
  obtain ⟨tests, ans, e⟩ := replyTo_eq_perform i ops b
  rw [e, perform_of_locked b tests ans h]

/-- A legal word is answered as its command, locked or not. -/
theorem replyToWord_of_ok {cmd : CmdWord} {i : Instr} (hd : decode cmd = .ok i) (ops : Operands) (b : Block) :
    replyToWord cmd ops b = replyTo i ops b := by
  by_cases h : b.flt = 0
  · rw [replyToWord, (locked_false_iff b).mpr h, hd]; rfl
  · rw [replyToWord, (locked_iff b).mpr h, replyTo_of_locked i ops h]; rfl

/-- Every illegal word has the same reply. -/
theorem replyToWord_of_error {cmd : CmdWord} {e : IllegalReason} (hd : decode cmd = .error e) (ops : Operands) (b : Block) :
    replyToWord cmd ops b = replyIllegal b := by
  rw [replyToWord, hd]; rfl

/-- The machine's meaning of a command delivers the block's reply to it. -/
theorem exec_eq_deliver (i : Instr) (s : State) : exec i s = deliver s (replyTo i s.operands s.block) := by
  cases i <;> rfl

/-- A command always answers, with its reply. -/
theorem exec_next_iff (i : Instr) (s t : State) :
    exec i s = .next t ↔ t = { s with block := (replyTo i s.operands s.block).block,
                                      response := some (replyTo i s.operands s.block).response } := by
  rw [exec_eq_deliver, deliver]
  exact ⟨fun h => by cases h; rfl, fun h => by rw [h]⟩

/-- An answer whose tests passed leaves a legal cursor, when it starts from one. -/
theorem encoderTests_none {ws : Width} {cur : Nat} {m : Word ws.bits}
    (h : firstFault (encoderTests ws cur m) = none) : m ≠ 0 ∧ cur + popcount m ≤ ws.bits := by
  simp only [encoderTests, firstFault_cons, firstFault_nil] at h
  split at h
  · cases h
  · split at h
    · cases h
    · rename_i h1 h2
      exact ⟨by simpa using h1, by simpa using h2⟩

theorem fieldTests_none {ws : Width} {p : Nat} {m : Word ws.bits}
    (h : firstFault (fieldTests ws p m) = none) : p < ws.bits ∧ m ≠ 0 ∧ p + popcount m ≤ ws.bits := by
  simp only [fieldTests, firstFault_cons, firstFault_nil] at h
  split at h
  · cases h
  · split at h
    · cases h
    · split at h
      · cases h
      · rename_i h1 h2 h3
        exact ⟨by simpa using h1, by simpa using h2, by simpa using h3⟩

end Frame

/-! ## Steps -/

/-- Everything a step can do: a reset, a decoded command, or an illegal word. -/
theorem step_cases {s t : State} (h : step s = .next t) :
    (∃ rest, s.pending = .reset :: rest ∧ t = acceptReset rest s) ∨
    (∃ cmd ops rest i, s.pending = .command cmd ops :: rest ∧ decode cmd = .ok i ∧
      exec i (acceptCommand ops rest s) = .next t) ∨
    (∃ cmd ops rest e, s.pending = .command cmd ops :: rest ∧ decode cmd = .error e ∧
      execIllegal (acceptCommand ops rest s) = .next t) := by
  unfold step at h
  split at h
  · cases h
  · rename_i rest hp
    cases h
    exact .inl ⟨rest, hp, rfl⟩
  · rename_i cmd ops rest hp
    unfold answerWord at h
    cases hd : decode cmd with
    | ok i => rw [hd] at h; exact .inr (.inl ⟨cmd, ops, rest, i, hp, hd, h⟩)
    | error e => rw [hd] at h; exact .inr (.inr ⟨cmd, ops, rest, e, hp, hd, h⟩)

end Sys2Proof.Machine
end

