-- ==== Sys2Proof/Laws/PerInstr.lean ====
section
/-! SUPPORT. Laws/PerInstr.lean: facts about every command as syntax, one lemma per constructor. -/

namespace Sys2Proof.Laws

/-- The encoding of a well-formed command has its opcode in the `op` field and 0 in the reserved `z` field
(30_encoding.md R51, R57). -/
def EncodedFields.Statement (i : Instr) : Prop :=
  i.wellFormed = true → opField (encode i) = opcodeOf i ∧ zField (encode i) = 0

/-- A packed word has the opcode and a zero `z` field. -/
theorem packed_fields {op ws q p : Nat} (hop : op < 256) (hws : ws < 4) (hq : q < 256) (hp : p < 256) :
    opField (packWord op ws q p) = op ∧ zField (packWord op ws q p) = 0 :=
  ⟨opField_packWord hop hws hq hp, zField_packWord hop hws hq hp⟩

theorem EncodedFields.bitcnt (ws : Width) : EncodedFields.Statement (.bitcnt ws) :=
  fun _ => packed_fields (opcodeOf_lt _) ws.code_lt (by decide) (by decide)

theorem EncodedFields.rol (ws : Width) (p : Nat) : EncodedFields.Statement (.rol ws p) :=
  fun h => packed_fields (opcodeOf_lt _) ws.code_lt (by decide) ((smallOperandFits_iff p).mp h)

theorem EncodedFields.ror (ws : Width) (p : Nat) : EncodedFields.Statement (.ror ws p) :=
  fun h => packed_fields (opcodeOf_lt _) ws.code_lt (by decide) ((smallOperandFits_iff p).mp h)

theorem EncodedFields.shl (ws : Width) (p : Nat) : EncodedFields.Statement (.shl ws p) :=
  fun h => packed_fields (opcodeOf_lt _) ws.code_lt (by decide) ((smallOperandFits_iff p).mp h)

theorem EncodedFields.shr (ws : Width) (p : Nat) : EncodedFields.Statement (.shr ws p) :=
  fun h => packed_fields (opcodeOf_lt _) ws.code_lt (by decide) ((smallOperandFits_iff p).mp h)

theorem EncodedFields.maskn (ws : Width) (p : Nat) : EncodedFields.Statement (.maskn ws p) :=
  fun h => packed_fields (opcodeOf_lt _) ws.code_lt (by decide) ((smallOperandFits_iff p).mp h)

theorem EncodedFields.vemaskle (ws : Width) (p : Nat) : EncodedFields.Statement (.vemaskle ws p) :=
  fun h => packed_fields (opcodeOf_lt _) ws.code_lt (by decide) ((smallOperandFits_iff p).mp h)

theorem EncodedFields.vemaskbe (ws : Width) (p : Nat) : EncodedFields.Statement (.vemaskbe ws p) :=
  fun h => packed_fields (opcodeOf_lt _) ws.code_lt (by decide) ((smallOperandFits_iff p).mp h)

theorem EncodedFields.secmaskle (ws : Width) (p : Nat) : EncodedFields.Statement (.secmaskle ws p) :=
  fun h => packed_fields (opcodeOf_lt _) ws.code_lt (by decide) ((smallOperandFits_iff p).mp h)

theorem EncodedFields.secmaskbe (ws : Width) (p : Nat) : EncodedFields.Statement (.secmaskbe ws p) :=
  fun h => packed_fields (opcodeOf_lt _) ws.code_lt (by decide) ((smallOperandFits_iff p).mp h)

theorem EncodedFields.nonetraits (ws : Width) : EncodedFields.Statement (.nonetraits ws) :=
  fun _ => packed_fields (opcodeOf_lt _) ws.code_lt (by decide) (by decide)

theorem EncodedFields.enumbits (ws : Width) : EncodedFields.Statement (.enumbits ws) :=
  fun _ => packed_fields (opcodeOf_lt _) ws.code_lt (by decide) (by decide)

theorem EncodedFields.extr (ws : Width) (p q : Nat) : EncodedFields.Statement (.extr ws p q) :=
  fun h => by
    have hpq := Bool.and_eq_true_iff.mp h
    exact packed_fields (opcodeOf_lt _) ws.code_lt ((smallOperandFits_iff q).mp hpq.2) ((smallOperandFits_iff p).mp hpq.1)

theorem EncodedFields.extv (ws : Width) (p q : Nat) : EncodedFields.Statement (.extv ws p q) :=
  fun h => by
    have hpq := Bool.and_eq_true_iff.mp h
    exact packed_fields (opcodeOf_lt _) ws.code_lt ((smallOperandFits_iff q).mp hpq.2) ((smallOperandFits_iff p).mp hpq.1)

theorem EncodedFields.dec (ws : Width) (p : Nat) : EncodedFields.Statement (.dec ws p) :=
  fun h => packed_fields (opcodeOf_lt _) ws.code_lt (by decide) ((smallOperandFits_iff p).mp h)

theorem EncodedFields.decn (ws : Width) (p : Nat) : EncodedFields.Statement (.decn ws p) :=
  fun h => packed_fields (opcodeOf_lt _) ws.code_lt (by decide) ((smallOperandFits_iff p).mp h)

theorem EncodedFields.ence (ws : Width) (p : Nat) : EncodedFields.Statement (.ence ws p) :=
  fun h => packed_fields (opcodeOf_lt _) ws.code_lt (by decide) ((smallOperandFits_iff p).mp h)

theorem EncodedFields.encf (ws : Width) (p : Nat) : EncodedFields.Statement (.encf ws p) :=
  fun h => packed_fields (opcodeOf_lt _) ws.code_lt (by decide) ((smallOperandFits_iff p).mp h)

theorem EncodedFields.encn (ws : Width) (p : Nat) : EncodedFields.Statement (.encn ws p) :=
  fun h => packed_fields (opcodeOf_lt _) ws.code_lt (by decide) ((smallOperandFits_iff p).mp h)

theorem EncodedFields.hinit : EncodedFields.Statement .hinit :=
  fun _ => packed_fields (opcodeOf_lt _) (by decide) (by decide) (by decide)

theorem EncodedFields.hseed (ws : Width) : EncodedFields.Statement (.hseed ws) :=
  fun _ => packed_fields (opcodeOf_lt _) ws.code_lt (by decide) (by decide)

theorem EncodedFields.henc (ws : Width) : EncodedFields.Statement (.henc ws) :=
  fun _ => packed_fields (opcodeOf_lt _) ws.code_lt (by decide) (by decide)

theorem EncodedFields.hencn (ws : Width) : EncodedFields.Statement (.hencn ws) :=
  fun _ => packed_fields (opcodeOf_lt _) ws.code_lt (by decide) (by decide)

theorem EncodedFields.hdec (ws : Width) : EncodedFields.Statement (.hdec ws) :=
  fun _ => packed_fields (opcodeOf_lt _) ws.code_lt (by decide) (by decide)

theorem EncodedFields.hdecn (ws : Width) : EncodedFields.Statement (.hdecn ws) :=
  fun _ => packed_fields (opcodeOf_lt _) ws.code_lt (by decide) (by decide)

theorem EncodedFields.hget (ws : Width) : EncodedFields.Statement (.hget ws) :=
  fun _ => packed_fields (opcodeOf_lt _) ws.code_lt (by decide) (by decide)

theorem EncodedFields.bitrev (ws : Width) : EncodedFields.Statement (.bitrev ws) :=
  fun _ => packed_fields (opcodeOf_lt _) ws.code_lt (by decide) (by decide)

theorem EncodedFields.bitswap (ws : Width) (p : Nat) : EncodedFields.Statement (.bitswap ws p) :=
  fun h => packed_fields (opcodeOf_lt _) ws.code_lt (by decide) ((smallOperandFits_iff p).mp h)

theorem EncodedFields.sext (ws : Width) (p : Nat) : EncodedFields.Statement (.sext ws p) :=
  fun h => packed_fields (opcodeOf_lt _) ws.code_lt (by decide) ((smallOperandFits_iff p).mp h)

end Sys2Proof.Laws
end

