-- ==== Sys2Proof/Tests/Slice0.lean ====
section
/-! SUPPORT. Slice0.lean: small tests. Expected values come from spec/95_test_vectors.md or from the rule a comment names,
never from the model. The witnesses at the end show that the hypotheses of each statement can be met. -/

namespace Sys2Proof.Tests

open Sys2Proof Sys2Proof.Machine

/-! ## Helpers -/

/-- An unlocked or locked block in the given condition. -/
def blockAt (h : Port) (cur flt : Nat) : State :=
  { State.reset with block := { h := h, cur := .ofNat 7 cur, flt := .ofNat 4 flt } }

/-- The reset state with operand values on the ports. -/
def onPorts (a b c : Port) : State := { State.reset with operands := { a := a, b := b, c := c } }

/-- The state with one host input still to come. -/
def presenting (x : HostInput) (s : State) : State := { s with pending := [x] }

/-- The response to one command word and the block after it. -/
def answer (s : State) (cmd : CmdWord) (a b c : Port) : Option (Response × Block) :=
  match serve (.command cmd { a := a, b := b, c := c }) s with
  | .next t => t.response.map fun x => (x, t.block)
  | _ => none

/-- A pure command from reset: OK with `R` and `R2`, and the block as it was. -/
def answersOk (cmd : CmdWord) (a b c r : Port) (r2 : SmallResult) : Bool :=
  answer State.reset cmd a b c == some (.ok r r2, { h := 0, cur := 0, flt := 0 })

/-- A command from reset that faults: the cause, and `FLT` its code. -/
def answersFault (cmd : CmdWord) (a b c : Port) (cause : FaultCause) (code : BitVec 4) : Bool :=
  answer State.reset cmd a b c == some (.fault cause, { h := 0, cur := 0, flt := code })

/-! ## WellFormed refuses what has no encoding (30_encoding.md R54, R56) -/

theorem test_wellformed_refuses_wide_p :
    [Instr.rol .w8 256, .ror .w8 256, .shl .w8 256, .shr .w8 256, .maskn .w8 256, .vemaskle .w8 256,
     .vemaskbe .w8 256, .secmaskle .w8 256, .secmaskbe .w8 256, .dec .w8 256, .decn .w8 256, .ence .w8 256,
     .encf .w8 256, .encn .w8 256, .bitswap .w8 256, .sext .w8 256].all (fun i => !i.wellFormed) = true := by decide

theorem test_wellformed_refuses_wide_p_or_q :
    [Instr.extr .w8 256 0, .extr .w8 0 256, .extv .w8 256 0, .extv .w8 0 256].all (fun i => !i.wellFormed) = true := by
  decide

theorem test_wellformed_refuses_narrow_encoder :
    ([Width.w8, .w16].all fun ws => [Instr.hseed ws, .henc ws, .hencn ws, .hdec ws, .hdecn ws, .hget ws].all fun i => !i.wellFormed) = true := by
  decide

theorem test_wellformed_accepts_the_bounds :
    [Instr.rol .w8 255, .extr .w8 255 255, .sext .w64 255, .hget .w32, .henc .w64, .hinit].all Instr.wellFormed = true := by
  decide

/-! ## Decoding, one written-out word for each constructor (30_encoding.md R51, R55; most words from 95_test_vectors.md) -/

theorem test_decode_bitcnt : decode 0x01010000 = .ok (.bitcnt .w16) ∧ encode (.bitcnt .w16) = 0x01010000 := by decide

theorem test_decode_rol : decode 0x10020004 = .ok (.rol .w32 4) ∧ encode (.rol .w32 4) = 0x10020004 := by decide

theorem test_decode_ror : decode 0x1103003F = .ok (.ror .w64 63) ∧ encode (.ror .w64 63) = 0x1103003F := by decide

theorem test_decode_shl : decode 0x12010004 = .ok (.shl .w16 4) ∧ encode (.shl .w16 4) = 0x12010004 := by decide

theorem test_decode_shr : decode 0x1301000F = .ok (.shr .w16 15) ∧ encode (.shr .w16 15) = 0x1301000F := by decide

theorem test_decode_maskn : decode 0x20030021 = .ok (.maskn .w64 33) ∧ encode (.maskn .w64 33) = 0x20030021 := by decide

theorem test_decode_vemaskle : decode 0x21010009 = .ok (.vemaskle .w16 9) ∧ encode (.vemaskle .w16 9) = 0x21010009 := by decide

theorem test_decode_vemaskbe : decode 0x22000003 = .ok (.vemaskbe .w8 3) ∧ encode (.vemaskbe .w8 3) = 0x22000003 := by decide

theorem test_decode_secmaskle : decode 0x2302001F = .ok (.secmaskle .w32 31) ∧ encode (.secmaskle .w32 31) = 0x2302001F := by decide

theorem test_decode_secmaskbe : decode 0x24030028 = .ok (.secmaskbe .w64 40) ∧ encode (.secmaskbe .w64 40) = 0x24030028 := by decide

theorem test_decode_nonetraits : decode 0x25020000 = .ok (.nonetraits .w32) ∧ encode (.nonetraits .w32) = 0x25020000 := by decide

theorem test_decode_enumbits : decode 0x26000000 = .ok (.enumbits .w8) ∧ encode (.enumbits .w8) = 0x26000000 := by decide

theorem test_decode_extr : decode 0x30020B04 = .ok (.extr .w32 4 11) ∧ encode (.extr .w32 4 11) = 0x30020B04 := by decide

theorem test_decode_extv : decode 0x3103043C = .ok (.extv .w64 60 4) ∧ encode (.extv .w64 60 4) = 0x3103043C := by decide

theorem test_decode_dec : decode 0x32030020 = .ok (.dec .w64 32) ∧ encode (.dec .w64 32) = 0x32030020 := by decide

theorem test_decode_decn : decode 0x3301000F = .ok (.decn .w16 15) ∧ encode (.decn .w16 15) = 0x3301000F := by decide

theorem test_decode_ence : decode 0x4002001C = .ok (.ence .w32 28) ∧ encode (.ence .w32 28) = 0x4002001C := by decide

theorem test_decode_encf : decode 0x41000007 = .ok (.encf .w8 7) ∧ encode (.encf .w8 7) = 0x41000007 := by decide

theorem test_decode_encn : decode 0x4203003D = .ok (.encn .w64 61) ∧ encode (.encn .w64 61) = 0x4203003D := by decide

theorem test_decode_hinit : decode 0x50000000 = .ok (.hinit) ∧ encode (.hinit) = 0x50000000 := by decide

theorem test_decode_hseed : decode 0x51020000 = .ok (.hseed .w32) ∧ encode (.hseed .w32) = 0x51020000 := by decide

theorem test_decode_henc : decode 0x52030000 = .ok (.henc .w64) ∧ encode (.henc .w64) = 0x52030000 := by decide

theorem test_decode_hencn : decode 0x53020000 = .ok (.hencn .w32) ∧ encode (.hencn .w32) = 0x53020000 := by decide

theorem test_decode_hdec : decode 0x54030000 = .ok (.hdec .w64) ∧ encode (.hdec .w64) = 0x54030000 := by decide

theorem test_decode_hdecn : decode 0x55020000 = .ok (.hdecn .w32) ∧ encode (.hdecn .w32) = 0x55020000 := by decide

theorem test_decode_hget : decode 0x56030000 = .ok (.hget .w64) ∧ encode (.hget .w64) = 0x56030000 := by decide

theorem test_decode_bitrev : decode 0x60010000 = .ok (.bitrev .w16) ∧ encode (.bitrev .w16) = 0x60010000 := by decide

theorem test_decode_bitswap : decode 0x61010007 = .ok (.bitswap .w16 7) ∧ encode (.bitswap .w16 7) = 0x61010007 := by decide

theorem test_decode_sext : decode 0x6202000C = .ok (.sext .w32 12) ∧ encode (.sext .w32 12) = 0x6202000C := by decide

/-- Illegal words of 95_test_vectors.md section 2.8, and one each of 30_encoding.md R56 and R58, with their reasons. -/
theorem test_decode_refuses :
    decode 0x00000000 = .error .unknownOpcode ∧ decode 0x01040000 = .error .reservedZ ∧
    decode 0x01020001 = .error .reservedP ∧ decode 0x10020104 = .error .reservedQ ∧
    decode 0x50010000 = .error .reservedWs ∧ decode 0x52010000 = .error .narrowEncoder ∧
    decode 0xFFFFFFFF = .error .reservedZ := by decide

theorem test_decode_table_word :
    decodeTableWord 32 0x30020B04 = some (.extr .w32 4 11) ∧ decodeTableWord 32 0x02020000 = none := by decide

/-! ## One step of each command (95_test_vectors.md sections 2.1 to 2.7) -/

theorem test_bitcnt : answersOk 0x01010000 0x12345 0 0 6 0 = true := by decide

theorem test_bitcnt_all : answersOk 0x01030000 0xFFFFFFFFFFFFFFFF 0 0 0x40 0 = true := by decide

theorem test_rol : answersOk 0x10000004 0x1A5 0 0 0x5A 0 = true := by decide

theorem test_ror : answersOk 0x11000001 0x81 0 0 0xC0 0 = true := by decide

theorem test_shl : answersOk 0x12010004 0xABCD 0 0 0xBCD0 0 = true := by decide

theorem test_shr : answersOk 0x1301000F 0x8000 0 0 1 0 = true := by decide

theorem test_maskn : answersOk 0x20030040 0 0 0 0xFFFFFFFFFFFFFFFF 0 = true := by decide

theorem test_vemaskle : answersOk 0x21010009 0 0 0 0x200 0 = true := by decide

theorem test_vemaskbe : answersOk 0x22010009 0 0 0 0x40 0 = true := by decide

theorem test_secmaskle : answersOk 0x23000003 0 0 0 0xF8 0 = true := by decide

theorem test_secmaskbe : answersOk 0x24000003 0 0 0 0x1F 0 = true := by decide

theorem test_nonetraits : answersOk 0x25020000 8 0 0 0xF 4 = true := by decide

theorem test_extr : answersOk 0x30000502 0xB6 0 0 0xD 0 = true := by decide

theorem test_extv : answersOk 0x3103043C 0xA000000000000005 0 0 0xA 0 = true := by decide

theorem test_dec : answersOk 0x32020004 0xDEADBEEF 0 5 4 6 = true := by decide

theorem test_decn : answersOk 0x33000004 0xF 0 7 0xFF 7 = true := by decide

theorem test_ence : answersOk 0x40020008 0xFFFFFFFF 5 0xF 0xFFFFF5FF 12 = true := by decide

theorem test_encf : answersOk 0x41020008 0xA00 5 0xF 0xF00 12 = true := by decide

theorem test_encn : answersOk 0x42020008 0xFFFFFFFF 0xFFFFFFFF 0xF 0xFFFFF0FF 12 = true := by decide

theorem test_bitrev : answersOk 0x60010000 0x1234 0 0 0x2C48 0 = true := by decide

theorem test_bitrev_byte : answersOk 0x60000000 1 0 0 0x80 0 = true := by decide

theorem test_bitswap : answersOk 0x61010007 0xA501 0 0 0xA580 0 = true := by decide

theorem test_sext : answersOk 0x6202000C 0x800 0 0 0xFFFFF800 0 = true := by decide

theorem test_rol_fault : answersFault 0x10020020 1 0 0 .badIndex 2 = true := by decide

theorem test_ror_fault : answersFault 0x110100FF 1 0 0 .badIndex 2 = true := by decide

theorem test_shl_fault : answersFault 0x12020020 1 0 0 .badIndex 2 = true := by decide

theorem test_shr_fault : answersFault 0x13000008 0xFF 0 0 .badIndex 2 = true := by decide

theorem test_maskn_fault : answersFault 0x20030041 0 0 0 .badCount 4 = true := by decide

theorem test_vemaskle_fault : answersFault 0x21000008 0 0 0 .badIndex 2 = true := by decide

theorem test_vemaskbe_fault : answersFault 0x22020020 0 0 0 .badIndex 2 = true := by decide

theorem test_secmaskle_fault : answersFault 0x23010010 0 0 0 .badIndex 2 = true := by decide

theorem test_secmaskbe_fault : answersFault 0x24030040 0 0 0 .badIndex 2 = true := by decide

theorem test_nonetraits_fault : answersFault 0x25000000 0x100 0 0 .badArg 6 = true := by decide

theorem test_enumbits_fault : answersFault 0x26010000 0x10001 0 0 .badArg 6 = true := by decide

theorem test_extr_fault : answersFault 0x30020B0C 1 0 0 .badIndex 2 = true := by decide

theorem test_extv_fault : answersFault 0x31000008 1 0 0 .badIndex 2 = true := by decide

theorem test_dec_fault : answersFault 0x32000003 1 0 0x100 .zeroMask 3 = true := by decide

theorem test_decn_fault : answersFault 0x3301000F 0 0 3 .badCount 4 = true := by decide

theorem test_ence_fault : answersFault 0x4002001D 0 1 0xF .badCount 4 = true := by decide

theorem test_encf_fault : answersFault 0x41000000 0 1 0 .zeroMask 3 = true := by decide

theorem test_encn_fault : answersFault 0x42030040 0 0 1 .badIndex 2 = true := by decide

theorem test_bitswap_fault : answersFault 0x61000008 0 0 0 .badIndex 2 = true := by decide

theorem test_sext_fault : answersFault 0x62020000 1 0 0 .badCount 4 = true := by decide

theorem test_hinit :
    answer (blockAt 0x1234 13 0) 0x50000000 0 0 0 = some (.ok 0 0, { h := 0x0, cur := 0, flt := 0 }) := by decide

theorem test_hseed :
    answer (blockAt 0xFFFFFFFFFFFFFFFF 40 0) 0x51020000 0x1B29 0 0 = some (.ok 0 0, { h := 0x1B29, cur := 0, flt := 0 }) := by decide

theorem test_hseed_64 :
    answer (blockAt 1 7 0) 0x51030000 0x123456789ABCDEF0 0 0 = some (.ok 0 0, { h := 0x123456789ABCDEF0, cur := 0, flt := 0 }) := by decide

theorem test_henc :
    answer (blockAt 0xAAAAAAAA55555555 0 0) 0x52020000 0 0xFFFFFFFF 0xFFFFFFFF = some (.ok 0 32, { h := 0xAAAAAAAAFFFFFFFF, cur := 32, flt := 0 }) := by decide

theorem test_hencn :
    answer (blockAt 9 4 0) 0x53020000 0 1 7 = some (.ok 0 7, { h := 0x29, cur := 7, flt := 0 }) := by decide

theorem test_hdec :
    answer (blockAt 0xB29 7 0) 0x54020000 0 0 0x1F = some (.ok 0x16 12, { h := 0xB29, cur := 12, flt := 0 }) := by decide

theorem test_hdecn :
    answer (blockAt 9 4 0) 0x55020000 0 0 7 = some (.ok 0xFFFFFFFF 7, { h := 9, cur := 7, flt := 0 }) := by decide

theorem test_hget :
    answer (blockAt 0xAAAAAAAA00000B29 12 0) 0x56020000 0 0 0 = some (.ok 0xB29 12, { h := 0xAAAAAAAA00000B29, cur := 12, flt := 0 }) := by decide

theorem test_hget_full :
    answer (blockAt 1 64 0) 0x56020000 0 0 0 = some (.ok 1 64, { h := 1, cur := 64, flt := 0 }) := by decide

theorem test_henc_fault :
    answer (blockAt 0xFFFFFFFF 28 0) 0x52020000 0 5 0x1F = some (.fault .cursorOverflow, { h := 0xFFFFFFFF, cur := 28, flt := 5 }) := by decide

/-- The full handle of 45_bitfield_encoder_fsm.md R126. -/
theorem test_hencn_fault :
    answer (blockAt 0 64 0) 0x53030000 0 1 1 = some (.fault .cursorOverflow, { h := 0, cur := 64, flt := 5 }) := by decide

theorem test_hdec_fault :
    answer (blockAt 0xB29 12 0) 0x54020000 0 0 0 = some (.fault .zeroMask, { h := 0xB29, cur := 12, flt := 3 }) := by decide

theorem test_hdecn_fault :
    answer (blockAt 0xB29 30 0) 0x55020000 0 0 7 = some (.fault .cursorOverflow, { h := 0xB29, cur := 30, flt := 5 }) := by decide

/-- The ENUMBITS rows of 95_test_vectors.md section 2.3 under the two roundings. -/
theorem test_enumbits_roundings :
    [2, 3, 4, 5, 6, 9, 10, 17, 255].map (enumBits .ceil) = [1, 2, 3, 3, 4, 4, 5, 5, 9] ∧
    [2, 3, 4, 5, 6, 9, 10, 17, 255].map (enumBits .floor) = [1, 2, 2, 3, 3, 4, 4, 5, 8] := by decide

/-! ## The machine around the commands -/

/-- A locked block looks at nothing (60_exceptions.md R155). -/
theorem test_locked :
    answer (blockAt 0xB29 12 4) 0x50000000 0 0 0 = some (.locked, { h := 0xB29, cur := 12, flt := 4 }) ∧
    answer (blockAt 0xB29 12 4) 0xFFFFFFFF 0 0 0 = some (.locked, { h := 0xB29, cur := 12, flt := 4 }) := by decide

/-- An illegal word (30_encoding.md R58). -/
theorem test_illegal : answersFault 0x52010000 0 1 1 .illegalCmd 1 = true := by decide

/-- Reset clears the latch, the handle and the cursor (70_reset_and_hazards.md R170). -/
theorem test_reset : step (presenting .reset (blockAt 0xB29 12 4)) = .next State.reset := rfl

theorem test_reset_inputs : step State.reset = .fault .noCommand := rfl

/-- The first step after placing a word in the reset state runs it (10_state.md R32: every command is ready). -/
theorem test_withFetchWord :
    step (State.reset.withFetchWord 32 0x20020005) = .next { State.reset with response := some (.ok 0x1F 0) } := rfl

/-- The spelling of 30_encoding.md R62. -/
theorem test_command_text :
    commandText (.rol .w32 4) { a := 0x80000001, b := 0, c := 0 } = "ROL.32 4 A=0x80000001 B=0x0 C=0x0" := by decide

theorem test_response_text :
    responseText (.ok 0x18 0) = "-> ST=OK, R=0x18, R2=0" ∧ responseText (.fault .badArg) = "-> ST=BAD_ARG" := by decide

/-- HSKIP of 30_encoding.md R63 is HDEC with `mask(n)`. -/
theorem test_pseudo :
    pseudoEnc .w32 8 = .ence .w32 8 ∧ pseudoHskip .w64 64 = .command 0x54030000 { a := 0, b := 0, c := 0xFFFFFFFFFFFFFFFF } := by
  decide

/-- Program P1's first session in three inputs: HINIT, HENC.32 of 9 under 0xF, HGET.32 (95_test_vectors.md section 3). -/
theorem test_session :
    (serveAll [.command 0x50000000 ⟨0, 0, 0⟩, .command 0x52020000 ⟨0, 9, 0xF⟩, .command 0x56020000 ⟨0, 0, 0⟩]
      State.reset).map Prod.fst = some [.ok 0 0, .ok 0 4, .ok 9 4] := by decide

/-- The same session on the block alone: its state is H, CUR and FLT (10_state.md R20). -/
theorem test_block_session :
    blockRun [.command 0x50000000 ⟨0, 0, 0⟩, .command 0x52020000 ⟨0, 9, 0xF⟩, .command 0x56020000 ⟨0, 0, 0⟩] ⟨0, 0, 0⟩ =
      ([.ok 0 0, .ok 0 4, .ok 9 4], ⟨9, 4, 0⟩) := by decide

/-! ## Witnesses: a state and operands that meet the hypotheses of each statement, clause by clause -/

theorem test_witness_ResetRestoresTheInitialBlock :
    let s := presenting .reset (blockAt 5 64 6)
    s.pending = .reset :: [] ∧ s.block.flt ≠ 0 ∧ ∃ t, step s = .next t ∧ t.block.flt = 0 := ⟨rfl, by decide, _, rfl, by decide⟩

theorem test_witness_StepKeepsStateInvariant :
    let s := presenting (.command 0x50000000 { a := 0, b := 0, c := 0 }) (blockAt 5 64 6)
    let s0 := presenting (.command 0x50000000 { a := 0, b := 0, c := 0 }) (blockAt 5 64 0)
    (StateInvariant s ∧ ∃ t, step s = .next t) ∧ (StateInvariant s0 ∧ ∃ t, step s0 = .next t) := ⟨⟨by decide, _, rfl⟩, ⟨by decide, _, rfl⟩⟩

theorem test_witness_ResponseAgreesWithLatchAfterStep :
    (∃ t, step (presenting (.command 0x50000000 { a := 0, b := 0, c := 0 }) State.reset) = .next t ∧ t.response = some (.ok 0 0)) ∧
    (∃ t, step (presenting (.command 0 ⟨0, 0, 0⟩) State.reset) = .next t ∧ t.response = some (.fault .illegalCmd)) ∧
    (∃ t, step (presenting (.command 0x50000000 { a := 0, b := 0, c := 0 }) (blockAt 0 0 1)) = .next t ∧ t.response = some .locked) ∧
    (∃ t, step (presenting .reset (blockAt 0 0 1)) = .next t ∧ t.response = none) ∧
    (presenting .reset State.reset).pending = .reset :: [] := 
  ⟨⟨_, rfl, by decide⟩, ⟨_, rfl, by decide⟩, ⟨_, rfl, by decide⟩, ⟨_, rfl, by decide⟩, rfl⟩

theorem test_witness_CursorStaysWithinWidth :
    let s := { blockAt 0 63 0 with operands := { a := 0, b := 0, c := 1 } }
    let s64 := { blockAt 0 64 0 with operands := { a := 0, b := 0, c := 1 } }
    (s.block.cur.toNat ≤ 64 ∧ advancesCursor (.hdec .w64) = true ∧ widthOf (.hdec .w64) = some .w64 ∧
      ∃ t, exec (.hdec .w64) s = .next t ∧ t.response = some (.ok 0 64)) ∧
    (s64.block.cur.toNat ≤ 64 ∧ ∃ t, exec (.hdec .w64) s64 = .next t ∧ t.response = some (.fault .cursorOverflow)) := 
  ⟨⟨by decide, by decide, by decide, _, rfl, by decide⟩, by decide, _, rfl, by decide⟩

theorem test_witness_CursorStaysWithinWidth_run :
    let cmds : List (Instr × Operands) := [(.henc .w64, ⟨0, 1, 0xFFFFFFFF⟩), (.hget .w32, ⟨0, 0, 0⟩), (.hdec .w64, ⟨0, 0, 0xFFFFFFFF⟩)]
    (∀ c ∈ cmds, c.1.wellFormed = true ∧ startsSession c.1 = false) ∧ State.reset.block.cur.toNat ≤ 64 ∧
    ∃ u, serveAll (cmds.map fun c => .command (encode c.1) c.2) State.reset = some ([.ok 0 32, .ok 1 32, .ok 0 64], u) ∧
      ∀ x ∈ [Response.ok 0 32, .ok 1 32, .ok 0 64], statusOf x = 0 := ⟨by decide, by decide, _, rfl, by decide⟩

theorem test_witness_CursorMovesOnlyForwardInASession :
    let s := { blockAt 0 63 0 with operands := { a := 0, b := 0, c := 1 } }
    (∃ t, step (presenting .reset s) = .next t) ∧
    (startsSession .hinit = true ∧ ∃ t, exec .hinit s = .next t ∧ t.response = some (.ok 0 0)) ∧
    (advancesCursor (.hdecn .w64) = true ∧ widthOf (.hdecn .w64) = some .w64 ∧
      ∃ t, exec (.hdecn .w64) s = .next t ∧ t.response = some (.ok 0xFFFFFFFFFFFFFFFF 64)) ∧
    (startsSession (.hget .w32) = false ∧ advancesCursor (.hget .w32) = false ∧
      ∃ t, exec (.hget .w32) s = .next t ∧ t.response = some (.ok 0 63)) := 
  ⟨⟨_, rfl⟩, ⟨by decide, _, rfl, by decide⟩, ⟨by decide, by decide, _, rfl, by decide⟩, by decide, by decide, _, rfl, by decide⟩

theorem test_witness_DecodeOfEncodeIsTheCommand :
    (Instr.extr .w64 255 255).wellFormed = true ∧ (Instr.sext .w8 0).wellFormed = true ∧ (Instr.hget .w32).wellFormed = true := by decide

theorem test_witness_EncodeOfDecodeIsTheWord :
    decode 0x3003FFFF = .ok (.extr .w64 255 255) ∧ decode 0x01000000 = .ok (.bitcnt .w8) := by decide

theorem test_witness_DecoderAgreesWithOpcodeMap :
    let row : OpcodeRow := ⟨0x62, 0x62000000, 0xFFFCFF00⟩
    row ∈ opcodeMap ∧ (0x620300FF : CmdWord) &&& row.mask = row.bits ∧ decode 0x620300FF = .ok (.sext .w64 255) := by decide

theorem test_witness_StepRunsTheDecodedCommand :
    (presenting (.command 0x620300FF ⟨1, 2, 3⟩) State.reset).pending = .command 0x620300FF ⟨1, 2, 3⟩ :: [] ∧
    decode 0x620300FF = .ok (.sext .w64 255) ∧ State.reset.pending = [] := by decide

theorem test_witness_IllegalWordFaultsBeforeOperands :
    let s := presenting (.command 0x01040000 ⟨1, 2, 3⟩) State.reset
    s.pending = .command 0x01040000 ⟨1, 2, 3⟩ :: [] ∧ s.block.flt = 0 ∧
    ∀ row ∈ opcodeMap, (0x01040000 : CmdWord) &&& row.mask ≠ row.bits := by decide

theorem test_witness_LockedBlockAnswersLocked :
    let s := presenting (.command 0 ⟨1, 2, 3⟩) (blockAt 0 0 1)
    (s.pending = .command 0 ⟨1, 2, 3⟩ :: [] ∧ s.block.flt ≠ 0) ∧
    ∃ t, step (presenting .reset s) = .next t ∧ (presenting .reset s).block.flt ≠ 0 ∧ t.block.flt = 0 := ⟨by decide, _, rfl, by decide, by decide⟩

theorem test_witness_FaultEntryChangesOnlyTheLatch :
    let s := presenting (.command 0 ⟨1, 2, 3⟩) State.reset
    let s64 := presenting (.command 0x52030000 ⟨0, 1, 1⟩) (blockAt 0 64 0)
    (s.pending = .command 0 ⟨1, 2, 3⟩ :: [] ∧ ∃ t, step s = .next t ∧ t.response = some (.fault .illegalCmd)) ∧
    (s64.pending = .command 0x52030000 ⟨0, 1, 1⟩ :: [] ∧ ∃ t, step s64 = .next t ∧ t.response = some (.fault .cursorOverflow)) := 
  ⟨⟨rfl, _, rfl, by decide⟩, rfl, _, rfl, by decide⟩

theorem test_witness_EveryCommandGetsOneResponse :
    (presenting (.command 0xFFFFFFFF ⟨1, 2, 3⟩) State.reset).pending = .command 0xFFFFFFFF ⟨1, 2, 3⟩ :: [] := by decide

theorem test_witness_AnswerDependsOnBlockAndCommandOnly :
    let x : HostInput := .command 0x56030000 ⟨0, 0, 0⟩
    let s := presenting x (blockAt 5 64 0)
    let s' : State := { block := s.block, operands := ⟨7, 8, 9⟩, response := some .locked, pending := [x, .reset] }
    s.pending = x :: [] ∧ s'.pending = x :: [.reset] ∧ s.block = s'.block ∧ ∃ t, step s = .next t := ⟨rfl, rfl, rfl, _, rfl⟩

theorem test_witness_OnlyNamedPortBitsAreLookedAt :
    SameReadBits (.bitcnt .w8) ⟨0x1FF, 0, 0⟩ ⟨0xFF, 1, 1⟩ ∧ SameReadBits .hinit ⟨1, 2, 3⟩ ⟨4, 5, 6⟩ ∧
    ∃ t, exec (.bitcnt .w8) (onPorts 0x1FF 0 0) = .next t := by
  refine ⟨fun ws h => ?_, fun ws h => ?_, _, rfl⟩
  · cases h; decide
  · cases h

theorem test_witness_OnlyEncoderCommandsWriteTheBlock :
    (∃ t, exec (.henc .w32) (onPorts 0 1 1) = .next t ∧ t.block.h ≠ 0 ∧ t.block.cur ≠ 0) ∧
    (∃ t, exec (.henc .w32) State.reset = .next t ∧ t.block.flt ≠ State.reset.block.flt) ∧
    (isPure (.sext .w64 64) = true ∧ (onPorts 1 0 0).block.flt = (onPorts 1 0 0).block.flt ∧
      ∃ t, exec (.sext .w64 64) (onPorts 1 0 0) = .next t) := 
  ⟨⟨_, rfl, by decide, by decide⟩, ⟨_, rfl, by decide⟩, by decide, rfl, _, rfl⟩

theorem test_witness_BitcntCountsTheOneBits :
    (onPorts 0xFF 0 0).block.flt = 0 := by decide

/-- RolMovesBitsUpModuloWidth, RorMovesBitsDownModuloWidth, ShlShiftsInZerosAtTheBottom, ShrShiftsInZerosAtTheTop,
VemaskleSetsBitPFromTheBottom, VemaskbeSetsBitPFromTheTop, SecmaskleSetsBitsFromPUp, SecmaskbeSetsTheLowWMinusPBits and
BitswapMirrorsTheLowBitsOnly: `p < 256` and `flt = 0` with `p < W` at its two ends, and with `W <= p` at its least -/
theorem test_witness_indexed_commands :
    255 < 256 ∧ (onPorts 1 0 0).block.flt = 0 ∧ 31 < Width.w32.bits ∧ 0 < Width.w8.bits ∧ Width.w32.bits ≤ 32 ∧ Width.w64.bits ≤ 64 := by decide

theorem test_witness_MasknSetsTheLowBits :
    255 < 256 ∧ State.reset.block.flt = 0 ∧ 64 ≤ Width.w64.bits ∧ Width.w64.bits < 65 := by decide

theorem test_witness_NonetraitsGivesTheLeastNoneableField :
    (onPorts 1 0 0).block.flt = 0 ∧ (lowBits .w8 (onPorts 1 0 0).operands.a).toNat ≠ 0 ∧
    (onPorts 0x100 0 0).block.flt = 0 ∧ (lowBits .w8 (onPorts 0x100 0 0).operands.a).toNat = 0 := by decide

theorem test_witness_EnumbitsFollowsThePrintedFormula :
    (onPorts 2 0 0).block.flt = 0 ∧ 1 < (lowBits .w8 (onPorts 2 0 0).operands.a).toNat ∧
    (lowBits .w8 (onPorts 1 0 0).operands.a).toNat ≤ 1 ∧ (1 < 5 ∧ ∃ k, 5 - 1 = 2 ^ k) ∧ (1 < 4 ∧ ∀ k, 4 - 1 ≠ 2 ^ k) := by
  refine ⟨by decide, by decide, by decide, ⟨by decide, 2, by decide⟩, by decide, fun k => ?_⟩
  rcases k with _ | k
  · decide
  · rw [Nat.pow_succ]; omega

theorem test_witness_ExtrExtractsTheInclusiveRange :
    255 < 256 ∧ (onPorts 1 0 0).block.flt = 0 ∧ (31 ≤ 31 ∧ 31 < Width.w32.bits) ∧
    (Width.w32.bits ≤ 32 ∨ 32 < 4) ∧ (Width.w32.bits ≤ 11 ∨ 11 < 12) := by decide

theorem test_witness_ExtvExtractsCountBits :
    255 < 256 ∧ (onPorts 1 0 0).block.flt = 0 ∧ (31 < Width.w32.bits ∧ 1 ≤ 1 ∧ 31 + 1 ≤ Width.w32.bits) ∧
    Width.w32.bits ≤ 32 ∧ (31 < Width.w32.bits ∧ (0 = 0 ∨ Width.w32.bits < 31 + 0)) ∧
    (31 < Width.w32.bits ∧ (2 = 0 ∨ Width.w32.bits < 31 + 2)) := by decide

/-- DecReadsTheFieldAndAdvances, DecnSubtractsOneFromTheField, EnceClearsThenSetsTheField, EncfOrsTheFieldIn and
EncnStoresTheValuePlusOne: the completing clause at the top bit, and the three faults -/
theorem test_witness_field_commands :
    255 < 256 ∧ (onPorts 1 1 1).block.flt = 0 ∧
    (7 < Width.w8.bits ∧ lowBits .w8 (onPorts 1 1 1).operands.c ≠ 0 ∧
      7 + onesCount .w8 (onPorts 1 1 1).operands.c ≤ Width.w8.bits) ∧
    Width.w8.bits ≤ 8 ∧
    (7 < Width.w8.bits ∧ lowBits .w8 (onPorts 1 1 0x100).operands.c = 0) ∧
    (7 < Width.w8.bits ∧ lowBits .w8 (onPorts 1 1 3).operands.c ≠ 0 ∧
      Width.w8.bits < 7 + onesCount .w8 (onPorts 1 1 3).operands.c) := by decide

/-- The zero field under which ENCF and ENCE agree. -/
theorem test_witness_EncfOrsTheFieldIn :
    ∀ i < Width.w8.bits, 7 ≤ i → (onPorts 1 1 1).operands.c.getLsbD (i - 7) = true → (onPorts 1 1 1).operands.a.getLsbD i = false := by decide

theorem test_witness_HinitClearsHandleAndCursor :
    (blockAt 5 64 0).block.flt = 0 ∧ (blockAt 5 64 1).block.flt ≠ 0 := by decide

/-- HseedLoadsTheWordAndRestartsTheCursor, HencAppendsAFieldAtTheCursor, HencnAppendsANoneableField,
HdecReadsTheFieldAtTheCursor, HdecnReadsANoneableFieldAtTheCursor and HgetReadsOutHandleAndCursor: the completing clause
at the top of the handle, and the two faults -/
theorem test_witness_encoder_commands :
    encoderWidth .w32 = true ∧ encoderWidth .w64 = true ∧
    (let s := { blockAt 5 63 0 with operands := { a := 0, b := 1, c := 1 } }
     s.block.flt = 0 ∧ lowBits .w64 s.operands.c ≠ 0 ∧ s.block.cur.toNat + onesCount .w64 s.operands.c ≤ Width.w64.bits) ∧
    (let s := { blockAt 5 5 0 with operands := { a := 0, b := 1, c := 0xF00000000 } }
     s.block.flt = 0 ∧ lowBits .w32 s.operands.c = 0) ∧
    (let s := { blockAt 5 32 0 with operands := { a := 0, b := 1, c := 1 } }
     s.block.flt = 0 ∧ lowBits .w32 s.operands.c ≠ 0 ∧ Width.w32.bits < s.block.cur.toNat + onesCount .w32 s.operands.c) := by decide

theorem test_witness_BitrevMirrorsTheWord :
    (onPorts 1 0 0).block.flt = 0 := by decide

theorem test_witness_SextExtendsTheFieldToTheWord :
    255 < 256 ∧ (onPorts 1 0 0).block.flt = 0 ∧ (1 ≤ 64 ∧ 64 ≤ Width.w64.bits) ∧ (1 ≤ 1 ∧ 1 ≤ Width.w8.bits) ∧
    (0 = 0 ∨ Width.w8.bits < 0) ∧ (9 = 0 ∨ Width.w8.bits < 9) := by decide

theorem test_witness_PopulationCountLaws :
    64 ≤ Width.w64.bits ∧ 63 < Width.w64.bits ∧ lowBits .w8 0x10F &&& lowBits .w8 0x1F0 = 0 := by decide

theorem test_witness_RotateAndShiftLaws :
    63 < Width.w64.bits ∧ 1 ≤ 63 ∧ 0 < Width.w8.bits := by decide

theorem test_witness_MaskRelations :
    63 < Width.w64.bits ∧ 0 < Width.w8.bits := by decide

theorem test_witness_ExtractionLaws :
    (63 < Width.w64.bits ∧ 1 ≤ 1 ∧ 63 + 1 ≤ Width.w64.bits) ∧
    lowBits .w64 1 ≠ 0 ∧ 63 + onesCount .w64 1 ≤ Width.w64.bits := by decide

theorem test_witness_InsertThenExtractRoundTrip :
    (1 ≤ 4 ∧ 60 + 4 ≤ Width.w64.bits) ∧ (0xF : Port) = BitVec.ofNat 64 (2 ^ 4 - 1) ∧ (1 : Port) &&& ((0xF : Port) <<< 60) = 0 ∧
    ((14 : Port).toNat + 1) % 2 ^ Width.w64.bits ≤ (0xF : Port).toNat ∧
    ((0xFFFFFFFFFFFFFFFF : Port).toNat + 1) % 2 ^ Width.w64.bits ≤ (0xF : Port).toNat ∧
    lowBits .w64 (lowBits .w64 0xF <<< 56) &&& ((0xF : Port) <<< 60) = 0 := by decide

theorem test_witness_AuxiliaryWordLaws :
    63 < Width.w64.bits ∧ (1 ≤ 64 ∧ 64 ≤ Width.w64.bits) ∧ (1 ≤ 1 ∧ 1 ≤ Width.w8.bits) := by decide

theorem test_witness_SequentialRoundTrip :
    let fs : List Field := [⟨4, 9, false⟩, ⟨3, 0xFFFFFFFF, true⟩, ⟨25, 0x1FFFFFF, false⟩]
    encoderWidth .w32 = true ∧ (blockAt 5 63 0).block.flt = 0 ∧ (∀ f ∈ fs, f.fits .w32) ∧ totalBits fs ≤ Width.w32.bits := by
  refine ⟨by decide, by decide, fun f hf => ?_, by decide⟩
  simp only [List.mem_cons, List.not_mem_nil, or_false] at hf
  rcases hf with rfl | rfl | rfl <;> exact ⟨by decide, by decide, by decide⟩

theorem test_witness_SeedAndSkipRestoreHandleAndCursor :
    (encoderWidth .w64 = true ∧ (blockAt 5 63 0).block.flt = 0 ∧ 1 ≤ 64 ∧ 64 ≤ Width.w64.bits) ∧
    ∃ t, serveAll [.command (encode (.hseed .w64)) ⟨0xAB, 0, 0⟩, pseudoHskip .w64 8] (blockAt 5 63 0) =
        some ([.ok 0 0, .ok 0xAB 8], t) ∧
      ∃ u, exec (.henc .w64) { t with operands := ⟨0, 1, 1⟩ } = .next u ∧ u.response = some (.ok 0 9) := ⟨by decide, _, rfl, _, rfl, by decide⟩

theorem test_witness_RunWentWrongExactlyWhenAResponseFailed :
    (∀ x ∈ [HostInput.command 0x56030000 ⟨0, 0, 0⟩, .command 0 ⟨0, 0, 0⟩, .command 0x56030000 ⟨0, 0, 0⟩], isCommand x = true) ∧
    State.reset.block.flt = 0 ∧
    ([Response.ok 0 0, .fault .illegalCmd, .locked] = [.ok 0 0] ++ .fault .illegalCmd :: [.locked] ∧
      (∀ y ∈ [Response.ok 0 0], statusOf y = 0) ∧ statusOf (.fault .illegalCmd) ≠ 0) := by decide

theorem test_witness_StepIsTheBlockMachine :
    (presenting (.command 0x620300FF ⟨1, 2, 3⟩) State.reset).pending = .command 0x620300FF ⟨1, 2, 3⟩ :: [] ∧
    (presenting .reset (blockAt 5 64 6)).pending = .reset :: [] := by decide

end Sys2Proof.Tests
end

section
/-! Proofs of the scope statements: one step on one presented word (00_scope.md R12), and which operand bits a command
looks at (R11). -/

namespace Sys2Proof.Machine

/-! ## A step on a presented command word -/

section Step

variable {s : State} {cmd : CmdWord} {ops : Operands} {rest : List HostInput} {i : Instr} {e : IllegalReason}

theorem step_of_nothing_presented (hp : s.pending = []) : step s = .fault .noCommand := by simp only [step, hp]

theorem step_of_command (hp : s.pending = .command cmd ops :: rest) :
    step s = answerWord cmd (acceptCommand ops rest s) := by simp only [step, hp]

theorem answerWord_of_ok (hd : decode cmd = .ok i) (s : State) : answerWord cmd s = exec i s := by
  simp only [answerWord, hd]

theorem answerWord_of_error (hd : decode cmd = .error e) (s : State) : answerWord cmd s = execIllegal s := by
  simp only [answerWord, hd]

/-- Legal or illegal, a word is answered with the block's reply to it. -/
theorem answerWord_eq_deliver (cmd : CmdWord) (s : State) :
    answerWord cmd s = deliver s (replyToWord cmd s.operands s.block) := by
  cases hd : decode cmd with
  | ok i => rw [answerWord_of_ok hd, exec_eq_deliver, replyToWord_of_ok hd]
  | error e => rw [answerWord_of_error hd, execIllegal, replyToWord_of_error hd]

/-- A step on a presented word delivers the block's reply to it, with the presented operands on the ports. -/
theorem step_command_eq_deliver (hp : s.pending = .command cmd ops :: rest) :
    step s = deliver (acceptCommand ops rest s) (replyToWord cmd ops s.block) := by
  rw [step_of_command hp, answerWord_eq_deliver, acceptCommand_operands, acceptCommand_block]

end Step

/-! ## The operand bits a command looks at -/

/-- Ports that agree on their low `W` bits are the same word of width `W`. -/
theorem truncPort_eq_of_lowBits_eq {ws : Width} {v v' : Port} (h : lowBits ws v = lowBits ws v') :
    truncPort ws v = truncPort ws v' := by
  rw [lowBits_eq, lowBits_eq] at h
  apply BitVec.eq_of_toNat_eq
  rw [← toNat_zext64, h, toNat_zext64]

section SameReadBits

variable {i : Instr} {o o' : Operands} {ws : Width}

theorem SameReadBits.opA_eq (h : SameReadBits i o o') (hw : widthOf i = some ws) (hr : readsA i = true) :
    opA ws o = opA ws o' := by
  obtain ⟨ha, _, _⟩ := h ws hw
  exact truncPort_eq_of_lowBits_eq (ha hr)

theorem SameReadBits.opB_eq (h : SameReadBits i o o') (hw : widthOf i = some ws) (hr : readsB i = true) :
    opB ws o = opB ws o' := by
  obtain ⟨_, hb, _⟩ := h ws hw
  exact truncPort_eq_of_lowBits_eq (hb hr)

theorem SameReadBits.opM_eq (h : SameReadBits i o o') (hw : widthOf i = some ws) (hr : readsC i = true) :
    opM ws o = opM ws o' := by
  obtain ⟨_, _, hc⟩ := h ws hw
  exact truncPort_eq_of_lowBits_eq (hc hr)

/-- The block's reply depends on the operands through the truncated ports of the command's row in 30_encoding.md R61:
the cases are the groups of commands that read the same ports. -/
theorem replyTo_eq_of_sameReadBits (h : SameReadBits i o o') (b : Block) : replyTo i o b = replyTo i o' b := by
  cases i with
  | maskn ws p | vemaskle ws p | vemaskbe ws p | secmaskle ws p | secmaskbe ws p | hinit | hget ws => rfl
  | bitcnt ws | nonetraits ws | enumbits ws | bitrev ws | hseed ws =>
    have ha : opA ws o = opA ws o' := h.opA_eq rfl rfl
    simp only [replyTo, replyBitcnt, replyNonetraits, replyEnumbits, replyBitrev, replyHseed, ha]
  | rol ws p | ror ws p | shl ws p | shr ws p | bitswap ws p | sext ws p =>
    have ha : opA ws o = opA ws o' := h.opA_eq rfl rfl
    simp only [replyTo, replyRol, replyRor, replyShl, replyShr, replyBitswap, replySext, ha]
  | extr ws p q | extv ws p q =>
    have ha : opA ws o = opA ws o' := h.opA_eq rfl rfl
    simp only [replyTo, replyExtr, replyExtv, ha]
  | dec ws p | decn ws p =>
    have ha : opA ws o = opA ws o' := h.opA_eq rfl rfl
    have hm : opM ws o = opM ws o' := h.opM_eq rfl rfl
    simp only [replyTo, replyDec, replyDecn, ha, hm]
  | ence ws p | encf ws p | encn ws p =>
    have ha : opA ws o = opA ws o' := h.opA_eq rfl rfl
    have hb : opB ws o = opB ws o' := h.opB_eq rfl rfl
    have hm : opM ws o = opM ws o' := h.opM_eq rfl rfl
    simp only [replyTo, replyEnce, replyEncf, replyEncn, ha, hb, hm]
  | henc ws | hencn ws =>
    have hb : opB ws o = opB ws o' := h.opB_eq rfl rfl
    have hm : opM ws o = opM ws o' := h.opM_eq rfl rfl
    simp only [replyTo, replyHenc, replyHencn, advancedCursor, hb, hm]
  | hdec ws | hdecn ws =>
    have hm : opM ws o = opM ws o' := h.opM_eq rfl rfl
    simp only [replyTo, replyHdec, replyHdecn, advancedCursor, hm]

end SameReadBits

/-! ## The obligations -/

/-- Settles O15: legal or not, the word is answered by delivering the block's reply to it. -/
theorem everyCommandGetsOneResponse : Obligations.EveryCommandGetsOneResponse := by
  intro s cmd ops rest hp
  exact ⟨_, _, step_command_eq_deliver hp, rfl, rfl, rfl⟩

/-- Settles O17: the block's reply reads the operands only through the truncated ports that the command names. -/
theorem onlyNamedPortBitsAreLookedAt : Obligations.OnlyNamedPortBitsAreLookedAt := by
  intro i s t o o' hsame ht
  have hreply : replyTo i o s.block = replyTo i o' s.block := replyTo_eq_of_sameReadBits hsame s.block
  rw [exec_next_iff] at ht ⊢
  rw [ht, hreply]

/-- Settles O11: the presented word takes the decoded arm of `answerWord`. -/
theorem stepRunsTheDecodedCommand : Obligations.StepRunsTheDecodedCommand := by
  refine ⟨fun s cmd ops rest i hp hd => ?_, fun s hp => step_of_nothing_presented hp⟩
  rw [step_of_command hp, answerWord_of_ok hd, acceptCommand]

end Sys2Proof.Machine
end

section
/-! Proofs of the state statements (10_state.md): what a command's meaning is built from, the step and the run as the
machine over `Block` (R20, R31), the state invariant (R23), and the latch and the response (R24). -/

namespace Sys2Proof.Machine

/-! ## What the frame of a command keeps -/

section Frame

variable {b b' : Block} {tests : List (Bool × FaultCause)} {ans : Answer}

theorem perform_keeps_h (h : ans.h = b.h) : (perform b tests ans).block.h = b.h := by
  rcases perform_cases b tests ans with ⟨_, e⟩ | ⟨_, cause, _, e⟩ | ⟨_, _, e⟩ <;> simp [e, h]

theorem perform_keeps_cur (h : ans.cur = b.cur) : (perform b tests ans).block.cur = b.cur := by
  rcases perform_cases b tests ans with ⟨_, e⟩ | ⟨_, cause, _, e⟩ | ⟨_, _, e⟩ <;> simp [e, h]

/-- Only a fault writes the latch. -/
theorem perform_fault_of_flt_ne (h : (perform b tests ans).block.flt ≠ b.flt) :
    ∃ cause, (perform b tests ans).response = .fault cause := by
  rcases perform_cases b tests ans with ⟨_, e⟩ | ⟨_, cause, _, e⟩ | ⟨_, _, e⟩
  · exact absurd (by rw [e, answerLocked_block]) h
  · exact ⟨cause, by rw [e, raiseFault_response]⟩
  · exact absurd (by rw [e, complete_flt]) h

/-- With tests and results that do not come from the block, the latch is all the frame reads. -/
theorem perform_pureAnswer_congr (h : b.flt = b'.flt) (tests : List (Bool × FaultCause)) (r : Port) (r2 : Nat) :
    (perform b tests (pureAnswer b r r2)).response = (perform b' tests (pureAnswer b' r r2)).response ∧
    (perform b tests (pureAnswer b r r2)).block.flt = (perform b' tests (pureAnswer b' r r2)).block.flt := by
  rcases perform_cases b tests (pureAnswer b r r2) with ⟨hl, e⟩ | ⟨hl, cause, hf, e⟩ | ⟨hl, hf, e⟩
  · rw [e, perform_of_locked b' _ _ (h ▸ hl)]
    exact ⟨rfl, h⟩
  · rw [e, perform_of_fault b' _ _ (h ▸ hl) hf]
    exact ⟨rfl, by simp [h]⟩
  · rw [e, perform_of_complete b' _ _ (h ▸ hl) hf]
    exact ⟨rfl, h⟩

end Frame

/-! ## The three kinds of commands -/

section Kinds

variable {i : Instr} (ops : Operands) (b : Block)

/-- A pure command tests and computes from its operands alone. -/
theorem replyTo_of_isPure (hi : isPure i = true) :
    ∃ tests r r2, ∀ b, replyTo i ops b = perform b tests (pureAnswer b r r2) := by
  cases i with
  | hinit | hseed ws | henc ws | hencn ws | hdec ws | hdecn ws | hget ws => cases hi
  | bitcnt ws | bitrev ws => exact ⟨[], _, _, fun _ => rfl⟩
  | rol ws p | ror ws p | shl ws p | shr ws p | maskn ws p | vemaskle ws p | vemaskbe ws p | secmaskle ws p
  | secmaskbe ws p | nonetraits ws | enumbits ws | extr ws p q | extv ws p q | dec ws p | decn ws p | ence ws p
  | encf ws p | encn ws p | bitswap ws p | sext ws p => exact ⟨_, _, _, fun _ => rfl⟩

/-- A session start has no test and restarts the cursor (45_bitfield_encoder_fsm.md R123, R124). -/
theorem replyTo_of_startsSession (hi : startsSession i = true) :
    ∃ h, replyTo i ops b = perform b [] (encoderAnswer 0 0 h 0) := by
  cases i with
  | hinit | hseed ws => exact ⟨_, rfl⟩
  | _ => cases hi

/-- HENC, HENCN, HDEC, HDECN leave the advanced cursor; the last two leave the handle (R125 to R128). -/
theorem replyTo_of_advancesCursor (hi : advancesCursor i = true) :
    ∃ ws r h, replyTo i ops b = perform b (encoderTests ws (cursor b) (opM ws ops))
        (encoderAnswer r (advancedCursor ws ops b) h (advancedCursor ws ops b)) ∧
      (writesHandle i = false → h = b.h) := by
  cases i with
  | henc ws | hencn ws => exact ⟨ws, _, _, rfl, fun hw => by cases hw⟩
  | hdec ws | hdecn ws => exact ⟨ws, _, _, rfl, fun _ => rfl⟩
  | _ => cases hi

/-- The pure commands and HGET answer with `H` and `CUR` as they were. -/
theorem replyTo_of_other (hs : startsSession i = false) (ha : advancesCursor i = false) :
    ∃ tests r r2, replyTo i ops b = perform b tests (pureAnswer b r r2) := by
  by_cases hp : isPure i = true
  · obtain ⟨tests, r, r2, e⟩ := replyTo_of_isPure ops hp
    exact ⟨tests, r, r2, e b⟩
  · cases i with
    | hget ws => exact ⟨[], _, _, rfl⟩
    | _ => simp [isPure, hs, ha] at hp

theorem writesHandle_of_startsSession (hi : startsSession i = true) : writesHandle i = true := by
  cases i with
  | hinit | hseed ws => rfl
  | _ => cases hi

theorem replyTo_keeps_cur (hs : startsSession i = false) (ha : advancesCursor i = false) :
    (replyTo i ops b).block.cur = b.cur := by
  obtain ⟨tests, r, r2, e⟩ := replyTo_of_other ops b hs ha
  rw [e, perform_keeps_cur (pureAnswer_cur b r r2)]

theorem replyTo_keeps_h (hw : writesHandle i = false) : (replyTo i ops b).block.h = b.h := by
  have hs : startsSession i = false :=
    Bool.eq_false_of_not_eq_true fun hs => by simp [writesHandle_of_startsSession hs] at hw
  cases ha : advancesCursor i with
  | true =>
    obtain ⟨ws, r, h, e, hh⟩ := replyTo_of_advancesCursor ops b ha
    rw [e, perform_keeps_h (hh hw)]
  | false =>
    obtain ⟨tests, r, r2, e⟩ := replyTo_of_other ops b hs ha
    rw [e, perform_keeps_h (pureAnswer_h b r r2)]

theorem replyTo_fault_of_flt_ne (h : (replyTo i ops b).block.flt ≠ b.flt) :
    ∃ cause, (replyTo i ops b).response = .fault cause := by
  obtain ⟨tests, ans, e⟩ := replyTo_eq_perform i ops b
  rw [e] at h ⊢
  exact perform_fault_of_flt_ne h

/-- Legal or not, every word is answered in the frame of a command. -/
theorem replyToWord_eq_perform (cmd : CmdWord) : ∃ tests ans, replyToWord cmd ops b = perform b tests ans := by
  cases hd : decode cmd with
  | ok i => rw [replyToWord_of_ok hd]; exact replyTo_eq_perform i ops b
  | error e => rw [replyToWord_of_error hd]; exact ⟨_, _, rfl⟩

end Kinds

/-! ## The step and the machine over the block -/

theorem step_of_reset {s : State} {rest : List HostInput} (hp : s.pending = .reset :: rest) :
    step s = .next (acceptReset rest s) := by
  simp only [step, hp]

/-- Settles O57: an accepted reset and a delivered reply are what `blockStep` answers. -/
theorem stepIsTheBlockMachine : Obligations.StepIsTheBlockMachine := by
  intro s x rest hp
  cases x with
  | reset => exact ⟨_, step_of_reset hp, rfl, rfl, nofun, fun _ => rfl⟩
  | command cmd ops =>
    exact ⟨_, step_command_eq_deliver hp, rfl, rfl, fun _ _ h => by cases h; rfl, nofun⟩

/-- A step that answers is a step of the block on some input. -/
theorem blockStep_of_step {s t : State} (h : step s = .next t) :
    ∃ x, (t.response, t.block) = blockStep x s.block := by
  cases hp : s.pending with
  | nil => rw [step_of_nothing_presented hp] at h; cases h
  | cons x rest =>
    obtain ⟨t', ht', hx, _⟩ := stepIsTheBlockMachine s x rest hp
    rw [h] at ht'
    cases ht'
    exact ⟨x, hx⟩

theorem serve_eq_blockStep (x : HostInput) (s : State) :
    ∃ t, serve x s = .next t ∧ (t.response, t.block) = blockStep x s.block ∧ t.pending = s.pending := by
  obtain ⟨t, ht, hx, hpend, _⟩ := stepIsTheBlockMachine { s with pending := x :: s.pending } x s.pending rfl
  exact ⟨t, ht, hx, hpend⟩

theorem serveAll_cons {x : HostInput} {xs : List HostInput} {rs : List Response} {s t u : State}
    (hx : serve x s = .next t) (hxs : serveAll xs t = some (rs, u)) :
    serveAll (x :: xs) s = some (t.response.toList ++ rs, u) := by
  simp only [serveAll, hx, hxs]

/-- Settles O58, by induction on the inputs: each is served as one step of the block. -/
theorem runIsTheBlockMachineRun : Obligations.RunIsTheBlockMachineRun := by
  intro xs
  induction xs with
  | nil => intro s; exact ⟨s, rfl, rfl, rfl⟩
  | cons x xs ih =>
    intro s
    obtain ⟨t, hserve, hx, htp⟩ := serve_eq_blockStep x s
    obtain ⟨u, hall, hub, hup⟩ := ih t
    refine ⟨u, ?_, ?_, hup.trans htp⟩
    · rw [serveAll_cons hserve hall, blockRun, ← hx]
    · rw [hub, blockRun, ← hx]

/-! ## The state invariant (R23) -/

/-- The invariant of R23, of the block alone: the carriers of `State` have no part in it. -/
def BlockInvariant (b : Block) : Prop := b.cur.toNat ≤ 64 ∧ b.flt.toNat ≤ 6

section Invariant

variable {b : Block}

theorem stateInvariant_iff (s : State) : StateInvariant s ↔ BlockInvariant s.block := Iff.rfl

theorem blockInvariant_reset : BlockInvariant Block.reset := ⟨Nat.zero_le 64, Nat.zero_le 6⟩

/-- The frame keeps the invariant when the command, once its tests have passed, leaves a legal cursor. -/
theorem perform_keeps_invariant {tests : List (Bool × FaultCause)} {ans : Answer} (hb : BlockInvariant b)
    (hans : firstFault tests = none → ans.cur.toNat ≤ 64) : BlockInvariant (perform b tests ans).block := by
  obtain ⟨hcur, hflt⟩ := hb
  rcases perform_cases b tests ans with ⟨_, e⟩ | ⟨h0, cause, _, e⟩ | ⟨_, hf, e⟩ <;> rw [e]
  · exact ⟨hcur, hflt⟩
  · refine ⟨hcur, ?_⟩
    rw [raiseFault_flt, h0]
    exact faultCode_le_six cause
  · exact ⟨hans hf, hflt⟩

/-- A cursor the encoder tests let through is at most `W`, so 7 bits hold it. -/
theorem advancedCursor_le {ws : Width} {ops : Operands}
    (h : firstFault (encoderTests ws (cursor b) (opM ws ops)) = none) :
    (BitVec.ofNat 7 (advancedCursor ws ops b)).toNat ≤ 64 := by
  obtain ⟨_, hle⟩ := encoderTests_none h
  calc (BitVec.ofNat 7 (advancedCursor ws ops b)).toNat
      ≤ advancedCursor ws ops b := by rw [BitVec.toNat_ofNat]; exact Nat.mod_le _ _
    _ ≤ ws.bits := hle
    _ ≤ 64 := bits_le ws

theorem replyTo_keeps_invariant (i : Instr) (ops : Operands) (hb : BlockInvariant b) :
    BlockInvariant (replyTo i ops b).block := by
  cases hs : startsSession i with
  | true =>
    obtain ⟨h, e⟩ := replyTo_of_startsSession ops b hs
    rw [e]
    exact perform_keeps_invariant hb fun _ => Nat.zero_le 64
  | false =>
    cases ha : advancesCursor i with
    | true =>
      obtain ⟨ws, r, h, e, _⟩ := replyTo_of_advancesCursor ops b ha
      rw [e]
      exact perform_keeps_invariant hb advancedCursor_le
    | false =>
      obtain ⟨tests, r, r2, e⟩ := replyTo_of_other ops b hs ha
      rw [e]
      exact perform_keeps_invariant hb fun _ => hb.1

theorem replyToWord_keeps_invariant (cmd : CmdWord) (ops : Operands) (hb : BlockInvariant b) :
    BlockInvariant (replyToWord cmd ops b).block := by
  cases hd : decode cmd with
  | ok i => rw [replyToWord_of_ok hd]; exact replyTo_keeps_invariant i ops hb
  | error e => rw [replyToWord_of_error hd]; exact perform_keeps_invariant hb fun _ => hb.1

theorem blockStep_keeps_invariant (x : HostInput) (hb : BlockInvariant b) : BlockInvariant (blockStep x b).2 := by
  cases x with
  | reset => exact blockInvariant_reset
  | command cmd ops => exact replyToWord_keeps_invariant cmd ops hb

end Invariant

/-- Settles O3: the step is a step of the block, and the block's step keeps the invariant. -/
theorem stepKeepsStateInvariant : Obligations.StepKeepsStateInvariant := by
  refine ⟨blockInvariant_reset, fun s t hs hstep => ?_⟩
  obtain ⟨x, hx⟩ := blockStep_of_step hstep
  have hkeep := blockStep_keeps_invariant x ((stateInvariant_iff s).mp hs)
  rw [← hx] at hkeep
  exact (stateInvariant_iff t).mpr hkeep

/-! ## The response and the latch (R24) -/

section Latch

variable {t : State} {b : Block}

/-- A state that shows a reply of the frame agrees with its latch: each outcome of the frame sets both. -/
theorem latchAgrees_of_perform {tests : List (Bool × FaultCause)} {ans : Answer}
    (hr : t.response = some (perform b tests ans).response) (hb : t.block = (perform b tests ans).block) :
    latchAgrees t = true := by
  rcases perform_cases b tests ans with ⟨hl, e⟩ | ⟨h0, cause, _, e⟩ | ⟨h0, _, e⟩ <;> rw [e] at hr hb
  · simpa [latchAgrees, hr, hb] using hl
  · simp [latchAgrees, hr, hb, h0]
  · simp [latchAgrees, hr, hb, h0]

theorem latchAgrees_of_blockStep {x : HostInput} (h : (t.response, t.block) = blockStep x b) :
    latchAgrees t = true := by
  obtain ⟨hr, hb⟩ := Prod.ext_iff.mp h
  cases x with
  | reset =>
    simp only [blockStep] at hr hb
    simp [latchAgrees, hr, hb]
  | command cmd ops =>
    obtain ⟨tests, ans, e⟩ := replyToWord_eq_perform ops b cmd
    simp only [blockStep, e] at hr hb
    exact latchAgrees_of_perform hr hb

end Latch

/-- Settles O4: every step is a step of the block, after which response and latch agree. -/
theorem responseAgreesWithLatchAfterStep : Obligations.ResponseAgreesWithLatchAfterStep := by
  refine ⟨fun s t hstep => ?_, fun s rest hp => step_of_reset hp⟩
  obtain ⟨x, hx⟩ := blockStep_of_step hstep
  exact latchAgrees_of_blockStep hx

/-- Settles O2: the reset block is legal, and no response goes with an empty latch. -/
theorem resetStateMeetsStateInvariant : Obligations.ResetStateMeetsStateInvariant :=
  ⟨blockInvariant_reset, rfl⟩

/-! ## Which commands write the block (R20) -/

/-- A pure command's reply reads nothing of the block but the latch. -/
theorem replyTo_congr_of_isPure {i : Instr} (hi : isPure i = true) (ops : Operands) {b b' : Block}
    (h : b.flt = b'.flt) :
    (replyTo i ops b).response = (replyTo i ops b').response ∧
    (replyTo i ops b).block.flt = (replyTo i ops b').block.flt := by
  obtain ⟨tests, r, r2, e⟩ := replyTo_of_isPure ops hi
  rw [e b, e b']
  exact perform_pureAnswer_congr h tests r r2

/-- A pure command keeps the handle and the cursor. -/
theorem replyTo_keeps_of_isPure {i : Instr} (hi : isPure i = true) (ops : Operands) (b : Block) :
    (replyTo i ops b).block.h = b.h ∧ (replyTo i ops b).block.cur = b.cur := by
  obtain ⟨tests, r, r2, e⟩ := replyTo_of_isPure ops hi
  rw [e b]
  exact ⟨perform_keeps_h (pureAnswer_h b r r2), perform_keeps_cur (pureAnswer_cur b r r2)⟩

/-- Settles O18: each clause is the rule of the block's reply for that element. -/
theorem onlyEncoderCommandsWriteTheBlock : Obligations.OnlyEncoderCommandsWriteTheBlock := by
  refine ⟨fun b b' hh hc hf => ?_, fun i s t ht => ?_, fun i s s' t hi hflt hops ht => ?_⟩
  · change Block.mk b.h b.cur b.flt = Block.mk b'.h b'.cur b'.flt
    rw [hh, hc, hf]
  · obtain rfl := (exec_next_iff i s t).mp ht
    refine ⟨rfl, rfl, fun hne => ?_, fun hne => ?_, fun hne => ?_⟩
    · by_contra hw
      exact hne (replyTo_keeps_h _ _ (Bool.eq_false_of_not_eq_true hw))
    · by_contra hc
      obtain ⟨hs, ha⟩ := not_or.mp hc
      exact hne (replyTo_keeps_cur _ _ (Bool.eq_false_of_not_eq_true hs) (Bool.eq_false_of_not_eq_true ha))
    · obtain ⟨cause, hcause⟩ := replyTo_fault_of_flt_ne _ _ hne
      exact ⟨cause, congrArg some hcause⟩
  · obtain rfl := (exec_next_iff i s t).mp ht
    obtain ⟨hh, hc⟩ := replyTo_keeps_of_isPure hi s.operands s.block
    obtain ⟨hresp, hlatch⟩ := replyTo_congr_of_isPure hi s.operands hflt
    refine ⟨hh, hc, _, (exec_next_iff i s' _).mpr rfl, ?_, ?_⟩
    · rw [← hops]; exact congrArg some hresp.symm
    · rw [← hops]; exact hlatch.symm

end Sys2Proof.Machine
end

section
/-! Proof of the statement about what an answer depends on (20_memory.md R44, R46). -/

namespace Sys2Proof.Machine

/-- The response and the block after a step on an input are `blockStep` of that input and the block before it: nothing
else of the state has a part in them. -/
theorem response_block_of_step {s t : State} {x : HostInput} {rest : List HostInput}
    (hp : s.pending = x :: rest) (h : step s = .next t) : (t.response, t.block) = blockStep x s.block := by
  obtain ⟨t', ht', hx, _⟩ := stepIsTheBlockMachine s x rest hp
  cases h.symm.trans ht'
  exact hx

/-- Settles O16: both steps deliver the block machine's answer to the one command from the one block. -/
theorem answerDependsOnBlockAndCommandOnly : Obligations.AnswerDependsOnBlockAndCommandOnly := by
  intro s s' t cmd ops rest rest' hp hp' hblock hstep
  obtain ⟨t', ht', hx', _⟩ := stepIsTheBlockMachine s' (.command cmd ops) rest' hp'
  have hagree : (t'.response, t'.block) = (t.response, t.block) := by
    rw [hx', ← hblock, ← response_block_of_step hp hstep]
  obtain ⟨hresponse, hafter⟩ := Prod.mk.inj hagree
  exact ⟨t', ht', hresponse, hafter⟩

end Sys2Proof.Machine
end

section
/-! Proofs of the encoding statements (30_encoding.md): the two round trips (R51, R60), the opcode map by match and mask
(R55), and the answer to an illegal word (R58). -/

namespace Sys2Proof

/-! ## Decoding the word of a well-formed command

What each format answers to the fields its own encoder writes (R53). -/

section RoundTrip

variable (ws : Width)

theorem formatN_code (k : Width → Instr) : formatN ws.code 0 0 k = .ok (k ws) := by simp [formatN]

theorem formatP_code (p : Nat) (k : Width → Nat → Instr) : formatP ws.code 0 p k = .ok (k ws p) := by simp [formatP]

theorem formatPQ_code (p q : Nat) (k : Width → Nat → Nat → Instr) : formatPQ ws.code q p k = .ok (k ws p q) := by
  simp [formatPQ]

theorem formatH_code {ws : Width} (h : encoderWidth ws = true) (k : Width → Instr) :
    formatH ws.code 0 0 k = .ok (k ws) := by
  have hws : ¬ ws.code < 2 := Nat.not_lt.mpr ((encoderWidth_iff ws).mp h)
  simp [formatH, hws]

end RoundTrip

/-- Settles O7: the word is packed from fields that fit, and the opcode's format gives the command back. The cases are
the five formats of R53. -/
theorem decodeOfEncodeIsTheCommand : Obligations.DecodeOfEncodeIsTheCommand := by
  intro i hwf
  cases i with
  | bitcnt ws | nonetraits ws | enumbits ws | bitrev ws =>
    exact (decode_packWord (opcodeOf_lt _) ws.code_lt (by decide) (by decide)).trans (formatN_code ws _)
  | rol ws p | ror ws p | shl ws p | shr ws p | maskn ws p | vemaskle ws p | vemaskbe ws p | secmaskle ws p
  | secmaskbe ws p | dec ws p | decn ws p | ence ws p | encf ws p | encn ws p | bitswap ws p | sext ws p =>
    have hp : p < 256 := (smallOperandFits_iff p).mp hwf
    exact (decode_packWord (opcodeOf_lt _) ws.code_lt (by decide) hp).trans (formatP_code ws p _)
  | extr ws p q | extv ws p q =>
    obtain ⟨hp, hq⟩ := Bool.and_eq_true_iff.mp hwf
    exact (decode_packWord (opcodeOf_lt _) ws.code_lt ((smallOperandFits_iff q).mp hq)
      ((smallOperandFits_iff p).mp hp)).trans (formatPQ_code ws p q _)
  | hseed ws | henc ws | hencn ws | hdec ws | hdecn ws | hget ws =>
    exact (decode_packWord (opcodeOf_lt _) ws.code_lt (by decide) (by decide)).trans (formatH_code hwf _)
  | hinit => rfl

/-! ## The formats (R53) -/

/-- The five formats of R53. -/
inductive WordFormat where
  | N | P | PQ | H | Z

/-- The field values a command of the format may have (R56, R57). -/
def WordFormat.Legal : WordFormat → (ws q p : Nat) → Prop
  | .N, _, q, p => q = 0 ∧ p = 0
  | .P, _, q, _ => q = 0
  | .PQ, _, _, _ => True
  | .H, ws, q, p => 2 ≤ ws ∧ q = 0 ∧ p = 0
  | .Z, ws, q, p => ws = 0 ∧ q = 0 ∧ p = 0

/-- The bits the format fixes, as R55 says how to read its masks. -/
def WordFormat.mask : WordFormat → CmdWord
  | .N => 0xFFFCFFFF
  | .P => 0xFFFCFF00
  | .PQ => 0xFFFC0000
  | .H => 0xFFFEFFFF
  | .Z => 0xFFFFFFFF

/-- The `ws` bits that the format fixes to 1: format H has bit 17 set (R55). -/
def WordFormat.fixedWs : WordFormat → Nat
  | .H => 2
  | .N | .P | .PQ | .Z => 0

/-- The row of R55 of an opcode of the format. -/
def WordFormat.row (f : WordFormat) (op : Nat) : OpcodeRow := ⟨op, packWord op f.fixedWs 0 0, f.mask⟩

/-- The command has the opcode, fits its fields, and its word is packed from the four fields. -/
structure Spells (op ws q p : Nat) (i : Instr) : Prop where
  opcode : opcodeOf i = op
  wellFormed : i.wellFormed = true
  word : encode i = packWord op ws q p

/-- The opcode is of the format: its decoder is the format's, at a constructor whose commands the opcode spells. -/
inductive DecodesAs (op : Nat) : WordFormat → (Nat → Nat → Nat → Except IllegalReason Instr) → Prop where
  | N (k : Width → Instr) (hk : ∀ ws, Spells op ws.code 0 0 (k ws)) :
      DecodesAs op .N fun ws q p => formatN ws q p k
  | P (k : Width → Nat → Instr) (hk : ∀ ws p, smallOperandFits p = true → Spells op ws.code 0 p (k ws p)) :
      DecodesAs op .P fun ws q p => formatP ws q p k
  | PQ (k : Width → Nat → Nat → Instr)
      (hk : ∀ ws p q, (smallOperandFits p && smallOperandFits q) = true → Spells op ws.code q p (k ws p q)) :
      DecodesAs op .PQ fun ws q p => formatPQ ws q p k
  | H (k : Width → Instr) (hk : ∀ ws, encoderWidth ws = true → Spells op ws.code 0 0 (k ws)) :
      DecodesAs op .H fun ws q p => formatH ws q p k
  | Z (i : Instr) (hi : Spells op 0 0 0 i) : DecodesAs op .Z fun ws q p => formatZ ws q p i

section DecodesAs

variable {op ws q p : Nat} {f : WordFormat} {dec : Nat → Nat → Nat → Except IllegalReason Instr} {i : Instr}

/-- What a format accepts is legal in it, and is the command of those fields. -/
theorem DecodesAs.sound (hd : DecodesAs op f dec) (hws : ws < 4) (hq : q < 256) (hp : p < 256)
    (h : dec ws q p = .ok i) : f.Legal ws q p ∧ Spells op ws q p i := by
  obtain ⟨w, rfl⟩ : ∃ w : Width, w.code = ws := ⟨widthOfCode ws, code_widthOfCode hws⟩
  have hpfits : smallOperandFits p = true := (smallOperandFits_iff p).mpr hp
  have hqfits : smallOperandFits q = true := (smallOperandFits_iff q).mpr hq
  cases hd with
  | N k hk =>
    obtain ⟨rfl, rfl, rfl⟩ := formatN_ok h
    rw [widthOfCode_code]
    exact ⟨⟨rfl, rfl⟩, hk w⟩
  | P k hk =>
    obtain ⟨rfl, rfl⟩ := formatP_ok h
    rw [widthOfCode_code]
    exact ⟨rfl, hk w p hpfits⟩
  | PQ k hk =>
    obtain rfl := formatPQ_ok h
    rw [widthOfCode_code]
    exact ⟨trivial, hk w p q (Bool.and_eq_true_iff.mpr ⟨hpfits, hqfits⟩)⟩
  | H k hk =>
    obtain ⟨rfl, rfl, hge, rfl⟩ := formatH_ok h
    rw [widthOfCode_code]
    exact ⟨⟨hge, rfl, rfl⟩, hk w ((encoderWidth_iff w).mpr hge)⟩
  | Z j hj =>
    obtain ⟨rfl, rfl, hz, rfl⟩ := formatZ_ok h
    rw [hz]
    exact ⟨⟨rfl, rfl, rfl⟩, hj⟩

/-- A format accepts all its legal field values. -/
theorem DecodesAs.complete (hd : DecodesAs op f dec) (hl : f.Legal ws q p) : ∃ i, dec ws q p = .ok i := by
  cases hd with
  | N k _ =>
    obtain ⟨rfl, rfl⟩ := hl
    exact ⟨_, rfl⟩
  | P k _ =>
    have hq : q = 0 := hl
    exact ⟨k (widthOfCode ws) p, by simp [formatP, hq]⟩
  | PQ k _ => exact ⟨_, rfl⟩
  | H k _ =>
    obtain ⟨hws, rfl, rfl⟩ := hl
    exact ⟨k (widthOfCode ws), by simp [formatH, Nat.not_lt.mpr hws]⟩
  | Z j _ =>
    obtain ⟨rfl, rfl, rfl⟩ := hl
    exact ⟨_, rfl⟩

end DecodesAs

/-! ## The opcode map and the decoder's arms -/

/-- Each row of the map is the row of a format, and the decoder reads the row's opcode in that format: the rows in the
order of R55. -/
theorem exists_format_of_mem_opcodeMap :
    ∀ row ∈ opcodeMap, ∃ f, row = WordFormat.row f row.opcode ∧ DecodesAs row.opcode f (decodeOp row.opcode) := by
  simp only [opcodeMap, List.cons_append, List.nil_append, List.forall_mem_cons]
  exact ⟨⟨.N, rfl, .N .bitcnt fun _ => ⟨rfl, rfl, rfl⟩⟩,
    ⟨.P, rfl, .P .rol fun _ _ hwf => ⟨rfl, hwf, rfl⟩⟩,
    ⟨.P, rfl, .P .ror fun _ _ hwf => ⟨rfl, hwf, rfl⟩⟩,
    ⟨.P, rfl, .P .shl fun _ _ hwf => ⟨rfl, hwf, rfl⟩⟩,
    ⟨.P, rfl, .P .shr fun _ _ hwf => ⟨rfl, hwf, rfl⟩⟩,
    ⟨.P, rfl, .P .maskn fun _ _ hwf => ⟨rfl, hwf, rfl⟩⟩,
    ⟨.P, rfl, .P .vemaskle fun _ _ hwf => ⟨rfl, hwf, rfl⟩⟩,
    ⟨.P, rfl, .P .vemaskbe fun _ _ hwf => ⟨rfl, hwf, rfl⟩⟩,
    ⟨.P, rfl, .P .secmaskle fun _ _ hwf => ⟨rfl, hwf, rfl⟩⟩,
    ⟨.P, rfl, .P .secmaskbe fun _ _ hwf => ⟨rfl, hwf, rfl⟩⟩,
    ⟨.N, rfl, .N .nonetraits fun _ => ⟨rfl, rfl, rfl⟩⟩,
    ⟨.N, rfl, .N .enumbits fun _ => ⟨rfl, rfl, rfl⟩⟩,
    ⟨.PQ, rfl, .PQ .extr fun _ _ _ hwf => ⟨rfl, hwf, rfl⟩⟩,
    ⟨.PQ, rfl, .PQ .extv fun _ _ _ hwf => ⟨rfl, hwf, rfl⟩⟩,
    ⟨.P, rfl, .P .dec fun _ _ hwf => ⟨rfl, hwf, rfl⟩⟩,
    ⟨.P, rfl, .P .decn fun _ _ hwf => ⟨rfl, hwf, rfl⟩⟩,
    ⟨.P, rfl, .P .ence fun _ _ hwf => ⟨rfl, hwf, rfl⟩⟩,
    ⟨.P, rfl, .P .encf fun _ _ hwf => ⟨rfl, hwf, rfl⟩⟩,
    ⟨.P, rfl, .P .encn fun _ _ hwf => ⟨rfl, hwf, rfl⟩⟩,
    ⟨.Z, rfl, .Z .hinit ⟨rfl, rfl, rfl⟩⟩,
    ⟨.H, rfl, .H .hseed fun _ hwf => ⟨rfl, hwf, rfl⟩⟩,
    ⟨.H, rfl, .H .henc fun _ hwf => ⟨rfl, hwf, rfl⟩⟩,
    ⟨.H, rfl, .H .hencn fun _ hwf => ⟨rfl, hwf, rfl⟩⟩,
    ⟨.H, rfl, .H .hdec fun _ hwf => ⟨rfl, hwf, rfl⟩⟩,
    ⟨.H, rfl, .H .hdecn fun _ hwf => ⟨rfl, hwf, rfl⟩⟩,
    ⟨.H, rfl, .H .hget fun _ hwf => ⟨rfl, hwf, rfl⟩⟩,
    ⟨.N, rfl, .N .bitrev fun _ => ⟨rfl, rfl, rfl⟩⟩,
    ⟨.P, rfl, .P .bitswap fun _ _ hwf => ⟨rfl, hwf, rfl⟩⟩,
    ⟨.P, rfl, .P .sext fun _ _ hwf => ⟨rfl, hwf, rfl⟩⟩,
    nofun⟩

theorem opcodes_nodup : (opcodeMap.map OpcodeRow.opcode).Nodup := by decide

/-- The decoder knows no opcode outside the map. -/
theorem exists_row_of_decodeOp_ok {op ws q p : Nat} {i : Instr} (h : decodeOp op ws q p = .ok i) :
    ∃ row ∈ opcodeMap, row.opcode = op := by
  rw [← List.mem_map]
  unfold decodeOp at h
  split at h
  case h_30 => cases h
  all_goals decide

section Decoded

variable {cmd : CmdWord} {i : Instr}

theorem decode_of_zField (hz : zField cmd = 0) :
    decode cmd = decodeOp (opField cmd) (wsField cmd) (qField cmd) (pField cmd) := by
  simp [decode, hz]

theorem zField_of_decode_ok (h : decode cmd = .ok i) : zField cmd = 0 := by
  by_contra hz
  simp [decode, hz] at h

/-- Everything a decodable word can be: its opcode has a row and a format, its fields are legal in the format, and the
command is the one they spell. -/
theorem decode_ok_cases (h : decode cmd = .ok i) :
    ∃ row ∈ opcodeMap, ∃ f, row = WordFormat.row f (opField cmd) ∧
      f.Legal (wsField cmd) (qField cmd) (pField cmd) ∧
      Spells (opField cmd) (wsField cmd) (qField cmd) (pField cmd) i := by
  rw [decode_of_zField (zField_of_decode_ok h)] at h
  obtain ⟨row, hmem, hop⟩ := exists_row_of_decodeOp_ok h
  obtain ⟨f, hrow, hdec⟩ := exists_format_of_mem_opcodeMap row hmem
  rw [hop] at hrow hdec
  exact ⟨row, hmem, f, hrow, hdec.sound (wsField_lt cmd) (qField_lt cmd) (pField_lt cmd) h⟩

end Decoded

/-- Settles O8: the command is spelled by the fields of the word, and those rebuild the word. -/
theorem encodeOfDecodeIsTheWord : Obligations.EncodeOfDecodeIsTheWord := by
  intro cmd i h
  obtain ⟨_, _, _, _, _, hspells⟩ := decode_ok_cases h
  exact ⟨hspells.wellFormed, hspells.word.trans (packWord_fields cmd (zField_of_decode_ok h))⟩

/-! ## Matching a row, field by field -/

/-- Masking a word masks each of its fields. -/
theorem cmdBits_and (a b : CmdWord) (lo len : Nat) : cmdBits (a &&& b) lo len = cmdBits a lo len &&& cmdBits b lo len := by
  simp only [cmdBits, BitVec.toNat_and, Nat.and_div_two_pow, Nat.and_mod_two_pow]

theorem opField_and (a b : CmdWord) : opField (a &&& b) = opField a &&& opField b := cmdBits_and a b 24 8

theorem zField_and (a b : CmdWord) : zField (a &&& b) = zField a &&& zField b := cmdBits_and a b 18 6

theorem wsField_and (a b : CmdWord) : wsField (a &&& b) = wsField a &&& wsField b := cmdBits_and a b 16 2

theorem qField_and (a b : CmdWord) : qField (a &&& b) = qField a &&& qField b := cmdBits_and a b 8 8

theorem pField_and (a b : CmdWord) : pField (a &&& b) = pField a &&& pField b := cmdBits_and a b 0 8

/-- A field under a mask of all its bits is the field. -/
theorem cmdBits_and_ones (cmd : CmdWord) (lo len : Nat) : cmdBits cmd lo len &&& (2 ^ len - 1) = cmdBits cmd lo len := by
  rw [Nat.and_two_pow_sub_one_eq_mod, cmdBits, Nat.mod_mod]

/-- A word is a packed word exactly when it has those fields. -/
theorem eq_packWord_iff {op ws q p : Nat} (hop : op < 256) (hws : ws < 4) (hq : q < 256) (hp : p < 256) (cmd : CmdWord) :
    cmd = packWord op ws q p ↔
      opField cmd = op ∧ zField cmd = 0 ∧ wsField cmd = ws ∧ qField cmd = q ∧ pField cmd = p := by
  constructor
  · rintro rfl
    exact ⟨opField_packWord hop hws hq hp, zField_packWord hop hws hq hp, wsField_packWord hop hws hq hp,
      qField_packWord hop hws hq hp, pField_packWord hop hws hq hp⟩
  · rintro ⟨rfl, hz, rfl, rfl, rfl⟩
    exact (packWord_fields cmd hz).symm

/-- On a two-bit field, format H's fixed bit says that the value is 2 or 3 (R55, R56). -/
theorem and_two_eq_two_iff : ∀ ws < 4, ws &&& 2 = 2 ↔ 2 ≤ ws := by decide

/-- The `ws`, `q` and `p` fields under the masks of a format are the fixed ones exactly when they are legal in it. -/
theorem WordFormat.legal_iff_masked (f : WordFormat) (cmd : CmdWord) :
    (wsField cmd &&& wsField f.mask = f.fixedWs ∧ qField cmd &&& qField f.mask = 0 ∧ pField cmd &&& pField f.mask = 0) ↔
      f.Legal (wsField cmd) (qField cmd) (pField cmd) := by
  have hws : wsField cmd &&& 3 = wsField cmd := cmdBits_and_ones cmd 16 2
  have hq : qField cmd &&& 255 = qField cmd := cmdBits_and_ones cmd 8 8
  have hp : pField cmd &&& 255 = pField cmd := cmdBits_and_ones cmd 0 8
  cases f with
  | N =>
    change wsField cmd &&& 0 = 0 ∧ qField cmd &&& 255 = 0 ∧ pField cmd &&& 255 = 0 ↔ qField cmd = 0 ∧ pField cmd = 0
    simp [hq, hp]
  | P =>
    change wsField cmd &&& 0 = 0 ∧ qField cmd &&& 255 = 0 ∧ pField cmd &&& 0 = 0 ↔ qField cmd = 0
    simp [hq]
  | PQ =>
    change wsField cmd &&& 0 = 0 ∧ qField cmd &&& 0 = 0 ∧ pField cmd &&& 0 = 0 ↔ True
    simp
  | H =>
    change wsField cmd &&& 2 = 2 ∧ qField cmd &&& 255 = 0 ∧ pField cmd &&& 255 = 0 ↔ _
    rw [hq, hp, and_two_eq_two_iff _ (wsField_lt cmd)]
    rfl
  | Z =>
    change wsField cmd &&& 3 = 0 ∧ qField cmd &&& 255 = 0 ∧ pField cmd &&& 255 = 0 ↔ _
    rw [hws, hq, hp]
    rfl

/-- Every format fixes the whole opcode and the reserved field. -/
theorem WordFormat.opField_zField_and_mask (f : WordFormat) (cmd : CmdWord) :
    opField cmd &&& opField f.mask = opField cmd ∧ zField cmd &&& zField f.mask = zField cmd := by
  have hop : opField f.mask = 2 ^ 8 - 1 := by cases f <;> decide
  have hz : zField f.mask = 2 ^ 6 - 1 := by cases f <;> decide
  rw [hop, hz]
  exact ⟨cmdBits_and_ones cmd 24 8, cmdBits_and_ones cmd 18 6⟩

theorem WordFormat.fixedWs_lt (f : WordFormat) : f.fixedWs < 4 := by cases f <;> decide

/-- A word matches the row of an opcode exactly when it has the opcode, a zero reserved field, and legal fields. -/
theorem WordFormat.matches_row_iff (f : WordFormat) {op : Nat} (hop : op < 256) (cmd : CmdWord) :
    cmd &&& (f.row op).mask = (f.row op).bits ↔
      opField cmd = op ∧ zField cmd = 0 ∧ f.Legal (wsField cmd) (qField cmd) (pField cmd) := by
  obtain ⟨hopField, hzField⟩ := f.opField_zField_and_mask cmd
  rw [← f.legal_iff_masked, WordFormat.row, eq_packWord_iff hop f.fixedWs_lt (by decide) (by decide), opField_and,
    zField_and, wsField_and, qField_and, pField_and, hopField, hzField]

theorem opcode_lt_of_mem_opcodeMap : ∀ row ∈ opcodeMap, row.opcode < 256 := by decide

section Rows

variable {cmd : CmdWord} {row : OpcodeRow}

/-- A matched row is of the word's opcode. -/
theorem opField_of_matches (hmem : row ∈ opcodeMap) (h : cmd &&& row.mask = row.bits) : opField cmd = row.opcode := by
  obtain ⟨f, hrow, _⟩ := exists_format_of_mem_opcodeMap row hmem
  rw [hrow, f.matches_row_iff (opcode_lt_of_mem_opcodeMap row hmem)] at h
  obtain ⟨hop, _, _⟩ := h
  exact hop

/-- A word that matches a row decodes, to a command of its opcode. -/
theorem decode_ok_of_matches (hmem : row ∈ opcodeMap) (h : cmd &&& row.mask = row.bits) :
    ∃ i, decode cmd = .ok i ∧ opcodeOf i = row.opcode := by
  obtain ⟨f, hrow, hdec⟩ := exists_format_of_mem_opcodeMap row hmem
  rw [hrow, f.matches_row_iff (opcode_lt_of_mem_opcodeMap row hmem)] at h
  obtain ⟨hop, hz, hlegal⟩ := h
  obtain ⟨i, hi⟩ := hdec.complete hlegal
  rw [← hop, ← decode_of_zField hz] at hi
  obtain ⟨_, _, _, _, _, hspells⟩ := decode_ok_cases hi
  exact ⟨i, hi, hspells.opcode.trans hop⟩

/-- Two rows of one opcode are one row. -/
theorem row_eq_of_opcode_eq {row' : OpcodeRow} (hmem : row ∈ opcodeMap) (hmem' : row' ∈ opcodeMap)
    (h : row.opcode = row'.opcode) : row = row' :=
  List.inj_on_of_nodup_map opcodes_nodup hmem hmem' h

/-- A word that decodes matches the row of its command's opcode. -/
theorem matches_of_decode_ok {i : Instr} (h : decode cmd = .ok i) :
    ∃ row ∈ opcodeMap, cmd &&& row.mask = row.bits ∧ row.opcode = opcodeOf i := by
  obtain ⟨row, hmem, f, hrow, hlegal, hspells⟩ := decode_ok_cases h
  have hopcode : row.opcode = opField cmd := by rw [hrow, WordFormat.row]
  have hop : opField cmd < 256 := hopcode ▸ opcode_lt_of_mem_opcodeMap row hmem
  refine ⟨row, hmem, ?_, hopcode.trans hspells.opcode.symm⟩
  rw [hrow, f.matches_row_iff hop]
  exact ⟨rfl, zField_of_decode_ok h, hlegal⟩

end Rows

/-- Settles O9: matching a row and decoding are the same condition on the fields, and a row is known by its opcode. -/
theorem decoderAgreesWithOpcodeMap : Obligations.DecoderAgreesWithOpcodeMap := by
  refine ⟨rfl, fun cmd row hmem => ⟨decode_ok_of_matches hmem, ?_⟩, fun cmd i h => ?_,
    fun cmd row hmem row' hmem' h h' => ?_⟩
  · rintro ⟨i, hi, hopcode⟩
    obtain ⟨row', hmem', hmatch, hopcode'⟩ := matches_of_decode_ok hi
    obtain rfl := row_eq_of_opcode_eq hmem' hmem (hopcode'.trans hopcode)
    exact hmatch
  · obtain ⟨row, hmem, hmatch, _⟩ := matches_of_decode_ok h
    exact ⟨row, hmem, hmatch⟩
  · exact row_eq_of_opcode_eq hmem hmem' ((opField_of_matches hmem h).symm.trans (opField_of_matches hmem' h'))

/-! ## Words that match no row -/

theorem decode_error_of_no_match {cmd : CmdWord} (h : ∀ row ∈ opcodeMap, cmd &&& row.mask ≠ row.bits) :
    ∃ e, decode cmd = .error e := by
  cases hd : decode cmd with
  | error e => exact ⟨e, rfl⟩
  | ok i =>
    obtain ⟨row, hmem, hmatch, _⟩ := matches_of_decode_ok hd
    exact absurd hmatch (h row hmem)

end Sys2Proof

namespace Sys2Proof.Machine

/-- An unlocked block answers an illegal word with fault entry. -/
theorem replyIllegal_of_unlocked {b : Block} (h : b.flt = 0) : replyIllegal b = raiseFault .illegalCmd b :=
  perform_of_fault b _ _ h rfl

/-- Settles O12: the word does not decode, so the step delivers fault entry with ILLEGAL_CMD. -/
theorem illegalWordFaultsBeforeOperands : Obligations.IllegalWordFaultsBeforeOperands := by
  refine ⟨fun s cmd ops rest hp hflt hnone => ?_, by decide⟩
  obtain ⟨e, he⟩ := decode_error_of_no_match hnone
  have hblock : (raiseFault .illegalCmd s.block).block = { s.block with flt := 1 } := by
    rw [raiseFault, hflt]
    rfl
  rw [step_command_eq_deliver hp, replyToWord_of_error he, replyIllegal_of_unlocked hflt, deliver_eq, hblock]
  rfl

end Sys2Proof.Machine
end

section
/-! Proofs of the bit counter statements (40_bit_counter.md): BITCNT (R71) and the laws of the population count (R72). -/

namespace Sys2Proof.Machine

/-! ## A command that completes without writing the block -/

section Completes

variable {i : Instr} {tests : List (Bool × FaultCause)} {r : Port} {r2 : Nat}

/-- On an unlocked block, a command whose tests pass and whose answer is pure leaves only its response. -/
theorem exec_of_completes {s : State} (hflt : s.block.flt = 0) (hf : firstFault tests = none)
    (h : replyTo i s.operands s.block = perform s.block tests (pureAnswer s.block r r2)) :
    exec i s = .next { s with response := some (.ok r (smallR2 r2)) } := by
  rw [exec_eq_deliver, h, perform_of_complete _ _ _ hflt hf]
  rfl

theorem pureR_of_completes {a b c : Port} (hf : firstFault tests = none)
    (h : replyTo i ⟨a, b, c⟩ Block.reset = perform Block.reset tests (pureAnswer Block.reset r r2)) :
    pureR i a b c = some r := by
  have he := exec_of_completes (s := { State.reset with operands := ⟨a, b, c⟩ }) rfl hf h
  simp only [pureR, pureResult, he, Option.map_some]

end Completes

/-- The test of the indexed commands passes below `W`. -/
theorem firstFault_indexTests {ws : Width} {p : Nat} (hp : p < ws.bits) : firstFault (indexTests ws p) = none := by
  simp [indexTests, hp]

section Results

variable (ws : Width) (a b c : Port)

theorem pureR_bitcnt : pureR (.bitcnt ws) a b c = some (BitVec.ofNat 64 (popcount (truncPort ws a))) :=
  pureR_of_completes firstFault_nil rfl

theorem pureR_bitrev : pureR (.bitrev ws) a b c = some (zext64 (bitReverse (truncPort ws a))) :=
  pureR_of_completes firstFault_nil rfl

variable {ws} {p : Nat}

theorem pureR_rol (hp : p < ws.bits) : pureR (.rol ws p) a b c = some (zext64 (rotateLeft (truncPort ws a) p)) :=
  pureR_of_completes (firstFault_indexTests hp) rfl

theorem pureR_ror (hp : p < ws.bits) : pureR (.ror ws p) a b c = some (zext64 (rotateRight (truncPort ws a) p)) :=
  pureR_of_completes (firstFault_indexTests hp) rfl

theorem pureR_bitswap (hp : p < ws.bits) : pureR (.bitswap ws p) a b c = some (zext64 (bitSwap (truncPort ws a) p)) :=
  pureR_of_completes (firstFault_indexTests hp) rfl

theorem pureR_maskn (hp : p ≤ ws.bits) : pureR (.maskn ws p) a b c = some (zext64 (maskW ws.bits p)) :=
  pureR_of_completes (tests := [(decide (ws.bits < p), .badCount)]) (by simp [hp]) rfl

end Results

/-! ## Truncation and the bit operations -/

section Truncation

variable (ws : Width) (a b : Port)

@[simp] theorem truncPort_zext64 (v : Word ws.bits) : truncPort ws (zext64 v) = v := by
  apply BitVec.eq_of_getLsbD_eq
  intro i hi
  rw [getLsbD_truncPort, getLsbD_zext64, decide_eq_true hi, Bool.true_and]

theorem truncPort_not : truncPort ws (~~~a) = notW (truncPort ws a) := by
  rw [notW_eq, truncPort, truncPort, BitVec.setWidth_not (bits_le ws)]

theorem truncPort_or : truncPort ws (a ||| b) = truncPort ws a ||| truncPort ws b := BitVec.setWidth_or

variable {ws a b}

/-- Ports whose low bits are disjoint are disjoint words of width `W`. -/
theorem truncPort_and_eq_zero (h : lowBits ws a &&& lowBits ws b = 0) : truncPort ws a &&& truncPort ws b = 0 := by
  have hzero : zext64 (truncPort ws a) &&& zext64 (truncPort ws b) = 0 := by rwa [← lowBits_eq, ← lowBits_eq]
  apply BitVec.eq_of_getLsbD_eq
  intro i _
  calc (truncPort ws a &&& truncPort ws b).getLsbD i
      = (zext64 (truncPort ws a) &&& zext64 (truncPort ws b)).getLsbD i := by
        rw [BitVec.getLsbD_and, BitVec.getLsbD_and, getLsbD_zext64, getLsbD_zext64]
    _ = (0 : Word ws.bits).getLsbD i := by rw [hzero]; simp

end Truncation

/-! ## Laws of the population count (R72) -/

section Popcount

variable {w : Nat}

/-- The population count is the size of the set of indices of the 1 bits. -/
theorem popcount_eq_card (v : Word w) : popcount v = ((Finset.range w).filter fun i => v.getLsbD i = true).card := by
  rw [← Nat.count_eq_card_filter_range]
  simp only [popcount, Nat.count, Bool.decide_eq_true]

theorem popcount_add_popcount_notW (v : Word w) : popcount (notW v) + popcount v = w := by
  have hnot : (Finset.range w).filter (fun i => (notW v).getLsbD i = true) =
      (Finset.range w).filter fun i => ¬ v.getLsbD i = true := by
    apply Finset.filter_congr
    intro i hi
    rw [getLsbD_notW, decide_eq_true (Finset.mem_range.mp hi)]
    simp
  rw [popcount_eq_card, popcount_eq_card, hnot, Nat.add_comm, Finset.card_filter_add_card_filter_not,
    Finset.card_range]

theorem popcount_maskW {n : Nat} (h : n ≤ w) : popcount (maskW w n) = n := by
  have hset : (Finset.range w).filter (fun i => (maskW w n).getLsbD i = true) = Finset.range n := by
    ext i
    rw [Finset.mem_filter, Finset.mem_range, Finset.mem_range, getLsbD_maskW, decide_eq_true_iff]
    omega
  rw [popcount_eq_card, hset, Finset.card_range]

theorem popcount_or_of_disjoint {u v : Word w} (h : u &&& v = 0) : popcount (u ||| v) = popcount u + popcount v := by
  have hbit (i : Nat) : ¬ (u.getLsbD i = true ∧ v.getLsbD i = true) := by
    rw [← Bool.and_eq_true, ← BitVec.getLsbD_and, h]
    simp
  simp only [popcount_eq_card, BitVec.getLsbD_or, Bool.or_eq_true, Finset.filter_or]
  exact Finset.card_union_of_disjoint (Finset.disjoint_filter.mpr fun i _ hu hv => hbit i ⟨hu, hv⟩)

/-- A word whose bits are those of another under an injective map of the indices has the same population count. -/
theorem popcount_eq_of_injOn {u v : Word w} (f : Nat → Nat) (hlt : ∀ i < w, f i < w)
    (hinj : ∀ i < w, ∀ j < w, f i = f j → i = j) (hbit : ∀ i < w, u.getLsbD i = v.getLsbD (f i)) :
    popcount u = popcount v := by
  have hmaps : Set.MapsTo f (Finset.range w) (Finset.range w) := fun i hi => by
    simpa using hlt i (by simpa using hi)
  have hinjOn : Set.InjOn f (Finset.range w) := fun i hi j hj =>
    hinj i (by simpa using hi) j (by simpa using hj)
  have hsurj : Set.SurjOn f (Finset.range w) (Finset.range w) :=
    Finset.surjOn_of_injOn_of_card_le f hmaps hinjOn le_rfl
  rw [popcount_eq_card, popcount_eq_card, Finset.card_filter, Finset.card_filter]
  exact Finset.sum_nbij f hmaps hinjOn hsurj fun i hi => by rw [hbit i (Finset.mem_range.mp hi)]

variable (v : Word w) {p : Nat}

theorem popcount_rotateLeft (hp : p < w) : popcount (rotateLeft v p) = popcount v := by
  refine popcount_eq_of_injOn (fun i => if p ≤ i then i - p else w - p + i) ?_ ?_ fun i hi => ?_
  · intros; grind
  · intros; grind
  · rw [getLsbD_rotateLeft v p i hp, decide_eq_true hi, Bool.true_and, apply_ite v.getLsbD]

theorem popcount_rotateRight (hp : p < w) : popcount (rotateRight v p) = popcount v := by
  refine popcount_eq_of_injOn (fun i => if i + p < w then i + p else i + p - w) ?_ ?_ fun i hi => ?_
  · intros; grind
  · intros; grind
  · rw [getLsbD_rotateRight v p i hp, decide_eq_true hi, Bool.true_and, apply_ite v.getLsbD]

theorem popcount_bitSwap (hp : p < w) : popcount (bitSwap v p) = popcount v := by
  refine popcount_eq_of_injOn (fun i => if i ≤ p then p - i else i) ?_ ?_ fun i hi => ?_
  · intros; grind
  · intros; grind
  · rw [getLsbD_bitSwap, decide_eq_true hi, Bool.true_and, apply_ite v.getLsbD]

theorem popcount_bitReverse : popcount (bitReverse v) = popcount v := by
  refine popcount_eq_of_injOn (fun i => w - 1 - i) ?_ ?_ fun i hi => ?_
  · intros; omega
  · intros; omega
  · rw [getLsbD_bitReverse, decide_eq_true hi, Bool.true_and]

end Popcount

/-! ## The obligations -/

/-- The count of the low `W` bits is at most `W` (R70). -/
theorem onesCount_le (ws : Width) (v : Port) : onesCount ws v ≤ ws.bits := by
  rw [← popcount_truncPort]
  exact popcount_le _

/-- Settles O19: BITCNT has no test, and the population count of the truncated port is the sum of its low bits. -/
theorem bitcntCountsTheOneBits : Obligations.BitcntCountsTheOneBits := by
  refine ⟨fun ws => ?_, fun ws s hflt => ⟨?_, onesCount_le ws _⟩⟩
  · simpa [encode, packWord, opcodeOf] using decodeOfEncodeIsTheCommand (.bitcnt ws) rfl
  · rw [← popcount_truncPort]
    exact exec_of_completes hflt firstFault_nil rfl

/-- BITCNT of the result of a command counts the 1 bits of the word behind that result. -/
theorem bind_bitcnt {ws : Width} {x : Option Port} {v : Word ws.bits} (h : x = some (zext64 v)) :
    (x.bind fun r => pureR (.bitcnt ws) r 0 0) = some (BitVec.ofNat 64 (popcount v)) := by
  rw [h, Option.bind_some, pureR_bitcnt, truncPort_zext64]

/-- Settles O48: each law is the law of `popcount` on the truncated words. -/
theorem populationCountLaws : Obligations.PopulationCountLaws := by
  intro ws a b
  refine ⟨?_, fun n hn => ?_, fun hab => ?_, fun p hp => ⟨?_, ?_, ?_⟩, ?_, ?_⟩
  · have hle : popcount (notW (truncPort ws a)) < 2 ^ 64 :=
      lt_of_le_of_lt ((popcount_le _).trans (bits_le ws)) (by decide)
    rw [pureR_bitcnt, truncPort_not, Option.map_some, BitVec.toNat_ofNat, Nat.mod_eq_of_lt hle, ← popcount_truncPort,
      popcount_add_popcount_notW]
  · rw [bind_bitcnt (pureR_maskn 0 0 0 hn), popcount_maskW hn]
  · rw [pureR_bitcnt, truncPort_or, popcount_or_of_disjoint (truncPort_and_eq_zero hab), popcount_truncPort,
      popcount_truncPort]
  · rw [bind_bitcnt (pureR_rol a 0 0 hp), popcount_rotateLeft _ hp, pureR_bitcnt]
  · rw [bind_bitcnt (pureR_ror a 0 0 hp), popcount_rotateRight _ hp, pureR_bitcnt]
  · rw [bind_bitcnt (pureR_bitswap a 0 0 hp), popcount_bitSwap _ hp, pureR_bitcnt]
  · rw [bind_bitcnt (pureR_bitrev ws a 0 0), popcount_bitReverse, pureR_bitcnt]
  · rw [pureR_bitcnt, popcount_truncPort]

end Sys2Proof.Machine
end

section
/-! Proofs of the barrel shifter statements (41_barrel_shifter.md): ROL, ROR, SHL, SHR (R76 to R79) and their laws
(R80). -/

namespace Sys2Proof.Machine

/-! ## Commands of format P and their index test -/

/-- The word `op * 2^24 + ws * 2^16 + p` of an opcode of format P decodes to that opcode's command (R51, R53). -/
theorem decode_formatP_word {op p : Nat} {k : Width → Nat → Instr} (hop : op < 256) (hp : p < 256) (ws : Width)
    (hk : decodeOp op ws.code 0 p = formatP ws.code 0 p k) :
    decode (BitVec.ofNat 32 (op * 2 ^ 24 + ws.code * 2 ^ 16 + p)) = .ok (k ws p) := by
  have hword : BitVec.ofNat 32 (op * 2 ^ 24 + ws.code * 2 ^ 16 + p) = packWord op ws.code 0 p := by
    rw [packWord, Nat.zero_mul, Nat.add_zero]
  rw [hword, decode_packWord hop ws.code_lt (by decide) hp, hk, formatP_code]

/-- On an unlocked block, a command with a failing test changes the latch only (R153). -/
theorem exec_of_fault {i : Instr} {s : State} {tests : List (Bool × FaultCause)} {ans : Answer} {cause : FaultCause}
    (hflt : s.block.flt = 0) (hf : firstFault tests = some cause)
    (h : replyTo i s.operands s.block = perform s.block tests ans) :
    exec i s = .next { s with block := { s.block with flt := faultCode cause }, response := some (.fault cause) } := by
  have hlatch : latch s.block.flt (faultCode cause) = faultCode cause := by rw [hflt]; exact latch_zero _
  rw [exec_eq_deliver, h, perform_of_fault _ _ _ hflt hf, raiseFault, hlatch, deliver_eq]

/-- The test of the indexed commands fails from `W` up. -/
theorem firstFault_indexTests_of_le {ws : Width} {p : Nat} (hp : ws.bits ≤ p) :
    firstFault (indexTests ws p) = some .badIndex := by
  simp [indexTests, hp]

/-- What an indexed command does on an unlocked block: its word as the result below `W`, BAD_INDEX from `W` up. -/
theorem exec_of_indexTests {i : Instr} {ws : Width} {p : Nat} {s : State} {v : Word ws.bits} {P : Port → Prop}
    (hflt : s.block.flt = 0)
    (h : replyTo i s.operands s.block = perform s.block (indexTests ws p) (pureAnswer s.block (zext64 v) 0))
    (hP : p < ws.bits → P (zext64 v)) :
    (p < ws.bits → ∃ r : Port, exec i s = .next { s with response := some (.ok r 0) } ∧ P r) ∧
    (ws.bits ≤ p → exec i s =
      .next { s with block := { s.block with flt := 2 }, response := some (.fault .badIndex) }) :=
  ⟨fun hp => ⟨_, exec_of_completes hflt (firstFault_indexTests hp) h, hP hp⟩,
    fun hp => exec_of_fault hflt (firstFault_indexTests_of_le hp) h⟩

section Results

variable {ws : Width} {p : Nat} (a b c : Port)

theorem pureR_shl (hp : p < ws.bits) : pureR (.shl ws p) a b c = some (zext64 (shlW (truncPort ws a) p)) :=
  pureR_of_completes (firstFault_indexTests hp) rfl

theorem pureR_shr (hp : p < ws.bits) : pureR (.shr ws p) a b c = some (zext64 (shrW (truncPort ws a) p)) :=
  pureR_of_completes (firstFault_indexTests hp) rfl

end Results

/-! ## Words on the result port -/

section ResultPort

variable (ws : Width)

theorem zext64_toNat_lt (v : Word ws.bits) : (zext64 v).toNat < 2 ^ ws.bits := by
  rw [toNat_zext64]
  exact v.isLt

theorem zext64_or (u v : Word ws.bits) : zext64 (u ||| v) = zext64 u ||| zext64 v := BitVec.setWidth_or

theorem zext64_and (u v : Word ws.bits) : zext64 (u &&& v) = zext64 u &&& zext64 v := BitVec.setWidth_and

/-- The complement within `W` bits under a word of `W` bits is the complement on the port. -/
theorem zext64_and_notW (u v : Word ws.bits) : zext64 (u &&& notW v) = zext64 u &&& ~~~zext64 v := by
  apply BitVec.eq_of_getLsbD_eq
  intro i hi
  rw [getLsbD_zext64, BitVec.getLsbD_and, BitVec.getLsbD_and, BitVec.getLsbD_not, getLsbD_notW, getLsbD_zext64,
    getLsbD_zext64, decide_eq_true hi, Bool.true_and]
  by_cases hw : i < ws.bits
  · rw [decide_eq_true hw, Bool.true_and]
  · rw [BitVec.getLsbD_of_ge u i (Nat.le_of_not_lt hw), Bool.false_and, Bool.false_and]

theorem zext64_maskW {n : Nat} (hn : n ≤ ws.bits) : zext64 (maskW ws.bits n) = BitVec.ofNat 64 (2 ^ n - 1) := by
  apply BitVec.eq_of_getLsbD_eq
  intro i hi
  rw [getLsbD_zext64, getLsbD_maskW, BitVec.getLsbD_ofNat, Nat.testBit_two_pow_sub_one, decide_eq_true hi,
    Bool.true_and]
  exact decide_eq_decide.mpr ⟨And.left, fun h => ⟨h, h.trans_le hn⟩⟩

theorem onesCount_zext64 (v : Word ws.bits) : onesCount ws (zext64 v) = popcount v := by
  rw [← popcount_truncPort, truncPort_zext64]

end ResultPort

/-! ## Rotates and shifts of a word -/

section Word

variable {w : Nat} (v : Word w) {p i : Nat}

/-- ROL bit by bit (R76). -/
theorem getLsbD_rotateLeft_add_mod (hp : p < w) (hi : i < w) :
    (rotateLeft v p).getLsbD ((i + p) % w) = v.getLsbD i := by
  rw [getLsbD_rotateLeft v p _ hp, decide_eq_true (Nat.mod_lt _ (Nat.zero_lt_of_lt hp)), Bool.true_and]
  by_cases h : i + p < w
  · rw [Nat.mod_eq_of_lt h, if_pos (Nat.le_add_left p i), Nat.add_sub_cancel]
  · have hmod : (i + p) % w = i + p - w := by
      rw [Nat.mod_eq_sub_mod (Nat.le_of_not_lt h), Nat.mod_eq_of_lt (by omega)]
    rw [hmod, if_neg (by omega)]
    congr 1
    omega

/-- ROR bit by bit (R77). -/
theorem getLsbD_rotateRight_eq_add_mod (hp : p < w) (hi : i < w) :
    (rotateRight v p).getLsbD i = v.getLsbD ((i + p) % w) := by
  rw [getLsbD_rotateRight v p i hp, decide_eq_true hi, Bool.true_and]
  by_cases h : i + p < w
  · rw [if_pos h, Nat.mod_eq_of_lt h]
  · rw [if_neg h, Nat.mod_eq_sub_mod (Nat.le_of_not_lt h), Nat.mod_eq_of_lt (by omega)]

theorem rotateRight_rotateLeft (hp : p < w) : rotateRight (rotateLeft v p) p = v := by
  apply BitVec.eq_of_getLsbD_eq
  intro i hi
  rw [getLsbD_rotateRight_eq_add_mod _ hp hi, getLsbD_rotateLeft_add_mod v hp hi]

/-- Every index below `W` is a moved index, `(i + p) mod W` with `i = (j + W - p) mod W`. -/
theorem exists_add_mod_eq (hp : p < w) {j : Nat} (hj : j < w) : ∃ i < w, (i + p) % w = j := by
  refine ⟨(j + (w - p)) % w, Nat.mod_lt _ (Nat.zero_lt_of_lt hp), ?_⟩
  rw [Nat.mod_add_mod, Nat.add_assoc, Nat.sub_add_cancel hp.le, Nat.add_mod_right, Nat.mod_eq_of_lt hj]

theorem rotateLeft_rotateRight (hp : p < w) : rotateLeft (rotateRight v p) p = v := by
  apply BitVec.eq_of_getLsbD_eq
  intro j hj
  obtain ⟨i, hi, rfl⟩ := exists_add_mod_eq hp hj
  rw [getLsbD_rotateLeft_add_mod _ hp hi, getLsbD_rotateRight_eq_add_mod v hp hi]

theorem rotateLeft_of_pos (hp : 1 ≤ p) : rotateLeft v p = shlW v p ||| shrW v (w - p) :=
  if_neg (Nat.ne_of_gt hp)

/-- A shift up and back keeps the bits that were not lost at the top. -/
theorem shrW_shlW : shrW (shlW v p) p = v &&& maskW w (w - p) := by
  apply BitVec.eq_of_getLsbD_eq
  intro i hi
  have hkept : (p ≤ p + i ∧ p + i < w) ↔ (i < w - p ∧ i < w) := by omega
  rw [getLsbD_shrW, getLsbD_shlW, BitVec.getLsbD_and, getLsbD_maskW, Nat.add_sub_cancel_left, Bool.and_comm,
    decide_eq_decide.mpr hkept]

/-- A shift down and back keeps the bits that were not lost at the bottom. -/
theorem shlW_shrW : shlW (shrW v p) p = v &&& notW (maskW w p) := by
  apply BitVec.eq_of_getLsbD_eq
  intro i hi
  rw [getLsbD_shlW, getLsbD_shrW, BitVec.getLsbD_and, getLsbD_notW, getLsbD_maskW, decide_eq_true hi, Bool.true_and]
  by_cases hpi : p ≤ i
  · rw [Nat.add_sub_cancel' hpi]
    simp [hpi, hi, -BitVec.getLsbD_eq_getElem]
  · simp [hpi, hi, Nat.lt_of_not_le hpi]

end Word

/-! ## The obligations -/

/-- Settles O20: an indexed command whose result is the word rotated left. -/
theorem rolMovesBitsUpModuloWidth : Obligations.RolMovesBitsUpModuloWidth := by
  refine ⟨fun ws p hp => decode_formatP_word (by decide) hp ws rfl, fun ws p s hflt =>
    exec_of_indexTests hflt rfl fun hp => ⟨fun i hi => ?_, zext64_toNat_lt ws _⟩⟩
  rw [getLsbD_zext64, getLsbD_rotateLeft_add_mod _ hp hi, getLsbD_opA, decide_eq_true hi, Bool.true_and]

/-- Settles O21: an indexed command whose result is the word rotated right. -/
theorem rorMovesBitsDownModuloWidth : Obligations.RorMovesBitsDownModuloWidth := by
  refine ⟨fun ws p hp => decode_formatP_word (by decide) hp ws rfl, fun ws p s hflt =>
    exec_of_indexTests hflt rfl fun hp => ⟨fun i hi => ?_, zext64_toNat_lt ws _⟩⟩
  have hmod : (i + p) % ws.bits < ws.bits := Nat.mod_lt _ (bits_pos ws)
  rw [getLsbD_zext64, getLsbD_rotateRight_eq_add_mod _ hp hi, getLsbD_opA, decide_eq_true hmod, Bool.true_and]

/-- Settles O22: an indexed command whose result is the word shifted left; a bit below `W` has its source below `W`. -/
theorem shlShiftsInZerosAtTheBottom : Obligations.ShlShiftsInZerosAtTheBottom := by
  refine ⟨fun ws p hp => decode_formatP_word (by decide) hp ws rfl, fun ws p s hflt =>
    exec_of_indexTests hflt rfl fun _ i => ?_⟩
  rw [getLsbD_zext64, getLsbD_shlW, getLsbD_opA]
  by_cases hi : p ≤ i ∧ i < ws.bits
  · have hsrc : i - p < ws.bits := Nat.lt_of_le_of_lt (Nat.sub_le i p) hi.2
    rw [decide_eq_true hsrc, Bool.true_and]
  · rw [decide_eq_false hi, Bool.false_and, Bool.false_and]

/-- Settles O23: an indexed command whose result is the word shifted right, whose source is cut to `W` bits. -/
theorem shrShiftsInZerosAtTheTop : Obligations.ShrShiftsInZerosAtTheTop := by
  refine ⟨fun ws p hp => decode_formatP_word (by decide) hp ws rfl, fun ws p s hflt =>
    exec_of_indexTests hflt rfl fun _ i => ?_⟩
  rw [getLsbD_zext64, getLsbD_shrW, getLsbD_opA, Nat.add_comm p i]

/-- Settles O49: each law is the law of the word functions on the truncated word. -/
theorem rotateAndShiftLaws : Obligations.RotateAndShiftLaws := by
  intro ws a p hp
  refine ⟨?_, ?_, fun hpos => ⟨_, _, pureR_shl a 0 0 hp, pureR_shr a 0 0 (by omega), ?_⟩, ?_, ?_, ?_, ?_⟩
  · rw [pureR_rol a 0 0 hp, Option.bind_some, pureR_ror _ 0 0 hp, truncPort_zext64, rotateRight_rotateLeft _ hp,
      lowBits_eq]
  · rw [pureR_ror a 0 0 hp, Option.bind_some, pureR_rol _ 0 0 hp, truncPort_zext64, rotateLeft_rotateRight _ hp,
      lowBits_eq]
  · rw [pureR_rol a 0 0 hp, rotateLeft_of_pos _ hpos, zext64_or]
  · rw [pureR_rol a 0 0 hp, Option.map_some, onesCount_zext64, popcount_rotateLeft _ hp, popcount_truncPort]
  · rw [pureR_ror a 0 0 hp, Option.map_some, onesCount_zext64, popcount_rotateRight _ hp, popcount_truncPort]
  · rw [pureR_shl a 0 0 hp, Option.bind_some, pureR_shr _ 0 0 hp, truncPort_zext64, shrW_shlW, zext64_and, lowBits_eq,
      zext64_maskW ws (Nat.sub_le _ _)]
  · rw [pureR_shr a 0 0 hp, Option.bind_some, pureR_shl _ 0 0 hp, truncPort_zext64, shlW_shrW, zext64_and_notW,
      lowBits_eq, zext64_maskW ws hp.le]

end Sys2Proof.Machine
end

section
/-! Proofs of the mask generator statements (42_bit_mask_gen.md): the count, single-bit and section masks (R86 to R90),
NONETRAITS and ENUMBITS (R91, R92), and the relations between the masks (R93). -/

namespace Sys2Proof.Machine

/-! ## The words of the mask commands -/

section MaskWords

variable {w : Nat}

/-- `mask(n)` as a number: the word holds all of `2^n - 1`. -/
theorem toNat_maskW {n : Nat} (hn : n ≤ w) : (maskW w n).toNat = 2 ^ n - 1 := by
  have hle : 2 ^ n ≤ 2 ^ w := Nat.pow_le_pow_right (by decide) hn
  have hpos : 0 < 2 ^ n := Nat.two_pow_pos n
  rw [maskW, BitVec.toNat_ofNat, Nat.mod_eq_of_lt (by omega)]

/-- The word `2^k` has bit `k` alone. -/
theorem getLsbD_ofNat_two_pow {k : Nat} (hk : k < w) (i : Nat) : (BitVec.ofNat w (2 ^ k)).getLsbD i = decide (i = k) := by
  rw [BitVec.getLsbD_ofNat, Nat.testBit_two_pow, ← Bool.decide_and]
  apply decide_eq_decide.mpr
  omega

/-- The section from index `p` up in the little-endian numbering (R89). -/
theorem getLsbD_shlW_ones (p i : Nat) : (shlW (ones w) p).getLsbD i = decide (p ≤ i ∧ i < w) := by
  rw [getLsbD_shlW, getLsbD_ones, ← Bool.decide_and]
  apply decide_eq_decide.mpr
  omega

/-- The section from index `p` up in the big-endian numbering (R90). -/
theorem getLsbD_shrW_ones (p i : Nat) : (shrW (ones w) p).getLsbD i = decide (i + p < w) := by
  rw [getLsbD_shrW, getLsbD_ones, Nat.add_comm]

/-- The little-endian section is the complement of the count mask. -/
theorem shlW_ones_eq_notW_maskW (p : Nat) : shlW (ones w) p = notW (maskW w p) := by
  apply BitVec.eq_of_getLsbD_eq
  intro i hi
  rw [getLsbD_shlW_ones, getLsbD_notW, getLsbD_maskW, ← decide_not, ← Bool.decide_and]
  apply decide_eq_decide.mpr
  omega

/-- The big-endian section is a count mask. -/
theorem shrW_ones_eq_maskW (p : Nat) : shrW (ones w) p = maskW w (w - p) := by
  apply BitVec.eq_of_getLsbD_eq
  intro i hi
  rw [getLsbD_shrW_ones, getLsbD_maskW]
  apply decide_eq_decide.mpr
  omega

/-- Mirroring the word swaps the numberings of a single bit. -/
theorem bitReverse_ofNat_two_pow {p : Nat} (hp : p < w) :
    bitReverse (BitVec.ofNat w (2 ^ p)) = BitVec.ofNat w (2 ^ (w - 1 - p)) := by
  apply BitVec.eq_of_getLsbD_eq
  intro i hi
  rw [getLsbD_bitReverse, getLsbD_ofNat_two_pow hp, getLsbD_ofNat_two_pow (by omega), ← Bool.decide_and]
  apply decide_eq_decide.mpr
  omega

/-- Mirroring the word swaps the numberings of a section. -/
theorem bitReverse_shlW_ones (p : Nat) : bitReverse (shlW (ones w) p) = shrW (ones w) p := by
  apply BitVec.eq_of_getLsbD_eq
  intro i hi
  rw [getLsbD_bitReverse, getLsbD_shlW_ones, getLsbD_shrW_ones, ← Bool.decide_and]
  apply decide_eq_decide.mpr
  omega

theorem popcount_shrW_ones (p : Nat) : popcount (shrW (ones w) p) = w - p := by
  rw [shrW_ones_eq_maskW, popcount_maskW (Nat.sub_le w p)]

theorem popcount_shlW_ones (p : Nat) : popcount (shlW (ones w) p) = w - p := by
  rw [← popcount_bitReverse, bitReverse_shlW_ones, popcount_shrW_ones]

end MaskWords

/-! ## The masks of a count and of an index -/

section SingleTest

variable {failed : Prop} [Decidable failed] (cause : FaultCause)

/-- A command's only test passes when its condition is false. -/
theorem firstFault_singleton_of_not (h : ¬ failed) : firstFault [(decide failed, cause)] = none := by
  rw [firstFault_cons, decide_eq_false h]
  rfl

/-- A command's only test is its fault when its condition is true. -/
theorem firstFault_singleton (h : failed) : firstFault [(decide failed, cause)] = some cause := by
  rw [firstFault_cons, decide_eq_true h]
  rfl

end SingleTest

/-- Settles O24: a count of at most `W` passes the test and gives its mask. -/
theorem masknSetsTheLowBits : Obligations.MasknSetsTheLowBits := by
  refine ⟨fun ws p hp => decode_formatP_word (by decide) hp ws rfl, fun ws p s hflt => ⟨fun hp => ?_, fun hp => ?_⟩⟩
  · refine ⟨_, exec_of_completes hflt (firstFault_singleton_of_not _ hp.not_gt) rfl, ?_, fun i => ?_⟩
    · rw [toNat_zext64, toNat_maskW hp]
    · rw [getLsbD_zext64, getLsbD_maskW]
      apply decide_eq_decide.mpr
      omega
  · exact exec_of_fault hflt (firstFault_singleton .badCount hp) rfl

/-- Settles O25: an indexed command whose result is the word `2^p`. -/
theorem vemaskleSetsBitPFromTheBottom : Obligations.VemaskleSetsBitPFromTheBottom := by
  refine ⟨fun ws p hp => decode_formatP_word (by decide) hp ws rfl, fun ws p s hflt =>
    exec_of_indexTests hflt rfl fun hp i => ?_⟩
  rw [getLsbD_zext64, getLsbD_ofNat_two_pow hp]

/-- Settles O26: an indexed command whose result is the word `2^(W - 1 - p)`. -/
theorem vemaskbeSetsBitPFromTheTop : Obligations.VemaskbeSetsBitPFromTheTop := by
  refine ⟨fun ws p hp => decode_formatP_word (by decide) hp ws rfl, fun ws p s hflt =>
    exec_of_indexTests hflt rfl fun hp i => ?_⟩
  rw [getLsbD_zext64, getLsbD_ofNat_two_pow (by omega)]
  apply decide_eq_decide.mpr
  omega

/-- Settles O27: an indexed command whose result is the little-endian section. -/
theorem secmaskleSetsBitsFromPUp : Obligations.SecmaskleSetsBitsFromPUp := by
  refine ⟨fun ws p hp => decode_formatP_word (by decide) hp ws rfl, fun ws p s hflt =>
    exec_of_indexTests hflt rfl fun _ i => ?_⟩
  rw [getLsbD_zext64, getLsbD_shlW_ones]

/-- Settles O28: an indexed command whose result is the big-endian section. -/
theorem secmaskbeSetsTheLowWMinusPBits : Obligations.SecmaskbeSetsTheLowWMinusPBits := by
  refine ⟨fun ws p hp => decode_formatP_word (by decide) hp ws rfl, fun ws p s hflt =>
    exec_of_indexTests hflt rfl fun _ i => ?_⟩
  rw [getLsbD_zext64, getLsbD_shrW_ones]

/-! ## Bit counts and logarithms (R91, R92) -/

section BitCounts

variable {n : Nat}

/-- A bit count is determined by the powers of two above the number. -/
theorem bitlen_eq_of_lt_two_pow_iff {m c : Nat} (h : ∀ k, m < 2 ^ k ↔ c ≤ k) : bitlen m = c :=
  eq_of_forall_ge_iff fun k => (bitlen_le_iff m k).trans (h k)

/-- The bit count of the codes below `n` is the rounded-up logarithm of `n`. -/
theorem bitlen_eq_clog (m : Nat) : bitlen m = Nat.clog 2 (m + 1) :=
  bitlen_eq_of_lt_two_pow_iff fun _ => (Nat.clog_le_iff_le_pow (by decide)).symm

theorem bitlen_two_pow (k : Nat) : bitlen (2 ^ k) = k + 1 :=
  bitlen_eq_of_lt_two_pow_iff fun _ => Nat.pow_lt_pow_iff_right (by decide)

theorem bitlen_two_pow_sub_one (k : Nat) : bitlen (2 ^ k - 1) = k := by
  rw [bitlen_eq_clog, Nat.sub_add_cancel (Nat.two_pow_pos k), Nat.clog_pow 2 k (by decide)]

/-- A number that is no power of two is bounded by the same powers of two as its predecessor. -/
theorem bitlen_sub_one_of_ne_two_pow (hpos : 0 < n) (hn : ∀ k, n ≠ 2 ^ k) : bitlen (n - 1) = bitlen n := by
  refine bitlen_eq_of_lt_two_pow_iff fun k => ?_
  have hne : n ≠ 2 ^ k := hn k
  rw [bitlen_le_iff]
  omega

end BitCounts

/-- The `ceil` setting is the printed formula (R92). -/
theorem enumBits_ceil_eq_clog {a : Nat} (ha : 1 < a) : enumBits .ceil a = Nat.clog 2 (a - 1) + 1 := by
  have hpred : a - 2 + 1 = a - 1 := by omega
  rw [enumBits, bitlen_eq_clog, hpred]

/-- The `floor` setting is the minimal width (R92). -/
theorem lt_two_pow_iff_enumBits_floor_le (a k : Nat) : a - 1 < 2 ^ k ↔ enumBits .floor a ≤ k :=
  (bitlen_le_iff (a - 1) k).symm

theorem enumBits_ceil_eq_floor_of_two_pow {a : Nat} (h : ∃ k, a - 1 = 2 ^ k) :
    enumBits .ceil a = enumBits .floor a := by
  obtain ⟨k, hk⟩ := h
  have hpred : a - 2 = 2 ^ k - 1 := by omega
  rw [enumBits, enumBits, hpred, hk, bitlen_two_pow_sub_one, bitlen_two_pow]

theorem enumBits_ceil_eq_floor_add_one {a : Nat} (ha : 1 < a) (h : ∀ k, a - 1 ≠ 2 ^ k) :
    enumBits .ceil a = enumBits .floor a + 1 := by
  have hkeep : bitlen (a - 1 - 1) = bitlen (a - 1) := bitlen_sub_one_of_ne_two_pow (by omega) h
  rw [enumBits, enumBits, ← hkeep, Nat.sub_sub]

/-! ## The commands of one number -/

/-- The word `op * 2^24 + ws * 2^16` of an opcode of format N decodes to that opcode's command (R51, R53). -/
theorem decode_formatN_word {op : Nat} {k : Width → Instr} (hop : op < 256) (ws : Width)
    (hk : decodeOp op ws.code 0 0 = formatN ws.code 0 0 k) :
    decode (BitVec.ofNat 32 (op * 2 ^ 24 + ws.code * 2 ^ 16)) = .ok (k ws) := by
  have hword : BitVec.ofNat 32 (op * 2 ^ 24 + ws.code * 2 ^ 16) = packWord op ws.code 0 0 := by
    rw [packWord, Nat.zero_mul, Nat.add_zero]
  rw [hword, decode_packWord hop ws.code_lt (by decide) (by decide), hk, formatN_code]

/-- The operand `a` of a command as the number on the low `W` bits of its port (R11). -/
theorem toNat_lowBits_a (ws : Width) (ops : Operands) : (lowBits ws ops.a).toNat = (opA ws ops).toNat := by
  rw [lowBits_eq, toNat_zext64, opA]

/-- Settles O29: the bit count is `bitlen a`, which the bounds `a < 2^k` determine. -/
theorem nonetraitsGivesTheLeastNoneableField : Obligations.NonetraitsGivesTheLeastNoneableField := by
  refine ⟨fun ws => decode_formatN_word (by decide) ws rfl, fun ws s hflt => ?_⟩
  rw [toNat_lowBits_a]
  refine ⟨fun ha => ?_, fun ha => exec_of_fault hflt (firstFault_singleton .badArg (BitVec.eq_of_toNat_eq ha)) rfl⟩
  have hne : opA ws s.operands ≠ 0 := fun h => ha (by rw [h]; rfl)
  have hle : bitlen (opA ws s.operands).toNat ≤ ws.bits := bitlen_le_of_lt (opA ws s.operands).isLt
  refine ⟨_, ?_, bitlen_eq_clog _, bitlen_pos ha, hle, fun k => (bitlen_le_iff _ k).symm⟩
  rw [← zext64_maskW ws hle]
  exact exec_of_completes hflt (firstFault_singleton_of_not _ hne) rfl

/-- Settles O30: `bitlen (a - 2) + 1` is the printed formula, and the settings compare `bitlen (a - 2)` with
`bitlen (a - 1)`. -/
theorem enumbitsFollowsThePrintedFormula : Obligations.EnumbitsFollowsThePrintedFormula := by
  refine ⟨fun ws => decode_formatN_word (by decide) ws rfl, rfl, fun ws s hflt => ?_, fun a ha =>
    ⟨lt_two_pow_iff_enumBits_floor_le a, enumBits_ceil_eq_floor_of_two_pow, enumBits_ceil_eq_floor_add_one ha⟩⟩
  rw [toNat_lowBits_a]
  refine ⟨fun ha => ?_, fun ha => exec_of_fault hflt (firstFault_singleton .badArg ha) rfl⟩
  rw [← enumBits_ceil_eq_clog ha]
  exact exec_of_completes hflt (firstFault_singleton_of_not _ ha.not_ge) rfl

/-! ## The relations between the masks (R93) -/

section Results

variable {ws : Width} {p : Nat} (a b c : Port)

theorem pureR_vemaskle (hp : p < ws.bits) :
    pureR (.vemaskle ws p) a b c = some (zext64 (BitVec.ofNat ws.bits (2 ^ p))) :=
  pureR_of_completes (firstFault_indexTests hp) rfl

theorem pureR_vemaskbe (hp : p < ws.bits) :
    pureR (.vemaskbe ws p) a b c = some (zext64 (BitVec.ofNat ws.bits (2 ^ (ws.bits - 1 - p)))) :=
  pureR_of_completes (firstFault_indexTests hp) rfl

theorem pureR_secmaskle (hp : p < ws.bits) : pureR (.secmaskle ws p) a b c = some (zext64 (shlW (ones ws.bits) p)) :=
  pureR_of_completes (firstFault_indexTests hp) rfl

theorem pureR_secmaskbe (hp : p < ws.bits) : pureR (.secmaskbe ws p) a b c = some (zext64 (shrW (ones ws.bits) p)) :=
  pureR_of_completes (firstFault_indexTests hp) rfl

end Results

theorem lowBits_not_zext64 {ws : Width} (v : Word ws.bits) : lowBits ws (~~~zext64 v) = zext64 (notW v) := by
  rw [lowBits_eq, truncPort_not, truncPort_zext64]

/-- BITREV of the result of a command mirrors the word behind that result. -/
theorem bind_bitrev {ws : Width} {x : Option Port} {v : Word ws.bits} (h : x = some (zext64 v)) :
    (x.bind fun r => pureR (.bitrev ws) r 0 0) = some (zext64 (bitReverse v)) := by
  rw [h, Option.bind_some, pureR_bitrev, truncPort_zext64]

/-- A bit of an OR over a list is 1 when some member has it. -/
theorem getLsbD_foldr_or {n : Nat} (f : Nat → BitVec n) (l : List Nat) (i : Nat) :
    (l.foldr (fun j acc => f j ||| acc) 0).getLsbD i = true ↔ ∃ j ∈ l, (f j).getLsbD i = true := by
  induction l with
  | nil => simp
  | cons j l ih => rw [List.foldr_cons, BitVec.getLsbD_or, Bool.or_eq_true, ih, List.exists_mem_cons_iff]

/-- The OR over the indices from `p` to `W - 1` is the word whose bits are those of the members. -/
theorem foldr_or_section {ws : Width} {p : Nat} {f : Nat → Port} {v : Word ws.bits} (hp : p < ws.bits)
    (h : ∀ i, (∃ j, (p ≤ j ∧ j < ws.bits) ∧ (f j).getLsbD i = true) ↔ v.getLsbD i = true) :
    (List.range' p (ws.bits - p)).foldr (fun j acc => f j ||| acc) 0 = zext64 v := by
  apply BitVec.eq_of_getLsbD_eq
  intro i _
  rw [Bool.eq_iff_iff, getLsbD_foldr_or, getLsbD_zext64, ← h i]
  simp only [List.mem_range'_1, Nat.add_sub_cancel' hp.le]

section SectionMask

variable {ws : Width} {p : Nat}

/-- A section is the OR of its single bits: in the little-endian numbering, bit `i` comes from index `i`. -/
theorem foldr_or_vemaskle (hp : p < ws.bits) :
    (List.range' p (ws.bits - p)).foldr (fun j acc => (pureR (.vemaskle ws j) 0 0 0).getD 0 ||| acc) 0 =
      zext64 (shlW (ones ws.bits) p) := by
  have hbit {j : Nat} (hj : j < ws.bits) (i : Nat) :
      ((pureR (.vemaskle ws j) 0 0 0).getD 0).getLsbD i = decide (i = j) := by
    rw [pureR_vemaskle 0 0 0 hj, Option.getD_some, getLsbD_zext64, getLsbD_ofNat_two_pow hj]
  refine foldr_or_section hp fun i => ?_
  rw [getLsbD_shlW_ones, decide_eq_true_iff]
  constructor
  · rintro ⟨j, hj, hi⟩
    rw [hbit hj.2, decide_eq_true_iff] at hi
    omega
  · exact fun hi => ⟨i, hi, by rw [hbit hi.2, decide_eq_true rfl]⟩

/-- A section is the OR of its single bits: in the big-endian numbering, bit `i` comes from index `W - 1 - i`. -/
theorem foldr_or_vemaskbe (hp : p < ws.bits) :
    (List.range' p (ws.bits - p)).foldr (fun j acc => (pureR (.vemaskbe ws j) 0 0 0).getD 0 ||| acc) 0 =
      zext64 (shrW (ones ws.bits) p) := by
  have hbit {j : Nat} (hj : j < ws.bits) (i : Nat) :
      ((pureR (.vemaskbe ws j) 0 0 0).getD 0).getLsbD i = decide (i = ws.bits - 1 - j) := by
    rw [pureR_vemaskbe 0 0 0 hj, Option.getD_some, getLsbD_zext64, getLsbD_ofNat_two_pow (by omega)]
  refine foldr_or_section hp fun i => ?_
  rw [getLsbD_shrW_ones, decide_eq_true_iff]
  constructor
  · rintro ⟨j, hj, hi⟩
    rw [hbit hj.2, decide_eq_true_iff] at hi
    omega
  · exact fun hi => ⟨ws.bits - 1 - i, by omega, by rw [hbit (by omega), decide_eq_true (by omega)]⟩

end SectionMask

/-- Settles O50: each relation is one of the words behind the results. -/
theorem maskRelations : Obligations.MaskRelations := by
  intro ws p hp
  have hle := pureR_secmaskle 0 0 0 hp
  have hbe := pureR_secmaskbe 0 0 0 hp
  refine ⟨?_, ⟨_, pureR_maskn 0 0 0 (Nat.sub_le _ _), ?_⟩,
    ⟨_, pureR_vemaskle 0 0 0 (by omega), pureR_vemaskbe 0 0 0 hp, ?_⟩, ⟨_, hbe, ?_⟩, ?_, ?_, ?_, ?_⟩
  · rw [hle, pureR_maskn 0 0 0 hp.le, Option.map_some, lowBits_not_zext64, shlW_ones_eq_notW_maskW]
  · rw [hbe, shrW_ones_eq_maskW]
  · rw [bind_bitrev (pureR_vemaskle 0 0 0 hp), bitReverse_ofNat_two_pow hp]
  · rw [bind_bitrev hle, bitReverse_shlW_ones]
  · rw [hle, foldr_or_vemaskle hp]
  · rw [hbe, foldr_or_vemaskbe hp]
  · rw [hle, Option.map_some, onesCount_zext64, popcount_shlW_ones]
  · rw [hbe, Option.map_some, onesCount_zext64, popcount_shrW_ones]

end Sys2Proof.Machine
end

section
/-! Proofs of the field extraction statements (43_field_extract.md): EXTR, EXTV, DEC, DECN (R101 to R104) and their laws
(R105). -/

namespace Sys2Proof.Machine

/-- The word `op * 2^24 + ws * 2^16 + q * 2^8 + p` of an opcode of format PQ decodes to that opcode's command
(R51, R53). -/
theorem decode_formatPQ_word {op p q : Nat} {k : Width → Nat → Nat → Instr} (hop : op < 256) (hp : p < 256)
    (hq : q < 256) (ws : Width) (hk : decodeOp op ws.code q p = formatPQ ws.code q p k) :
    decode (BitVec.ofNat 32 (op * 2 ^ 24 + ws.code * 2 ^ 16 + q * 2 ^ 8 + p)) = .ok (k ws p q) := by
  rw [← packWord, decode_packWord hop ws.code_lt hq hp, hk, formatPQ_code]

/-! ## The words of the extraction commands -/

section ExtractedWords

variable {w : Nat}

theorem toNat_shrW (v : Word w) (p : Nat) : (shrW v p).toNat = v.toNat / 2 ^ p := by
  rw [shrW_eq, BitVec.toNat_ushiftRight, Nat.shiftRight_eq_div_pow]

theorem toNat_extractField (v m : Word w) (p : Nat) : (extractField v m p).toNat = v.toNat / 2 ^ p &&& m.toNat := by
  rw [extractField, BitVec.toNat_and, toNat_shrW]

theorem toNat_noneableValue (e : Word w) : (noneableValue e).toNat = (e.toNat + 2 ^ w - 1) % 2 ^ w := by
  rw [noneableValue, BitVec.toNat_ofNat]

theorem maskW_ne_zero {n : Nat} (hpos : 1 ≤ n) (hn : n ≤ w) : maskW w n ≠ 0 := by
  intro h
  have hbit : (maskW w n).getLsbD 0 = true := by
    rw [getLsbD_maskW]
    exact decide_eq_true ⟨hpos, hpos.trans hn⟩
  rw [h] at hbit
  simp at hbit

/-- A field of `n` bits that lies in the word: the mask alone cuts it, since every bit it keeps is below `W`. -/
theorem getLsbD_extractField_maskW {ws : Width} {p n : Nat} (hn : p + n ≤ ws.bits) (v : Port) (i : Nat) :
    (extractField (truncPort ws v) (maskW ws.bits n) p).getLsbD i = (decide (i < n) && v.getLsbD (p + i)) := by
  rw [getLsbD_extractField, getLsbD_truncPort, getLsbD_maskW]
  by_cases hi : i < n
  · have hword : p + i < ws.bits := by omega
    have hmask : i < n ∧ i < ws.bits := by omega
    rw [decide_eq_true hi, decide_eq_true hword, decide_eq_true hmask, Bool.and_true]
  · have hmask : ¬ (i < n ∧ i < ws.bits) := fun h => hi h.1
    rw [decide_eq_false hi, decide_eq_false hmask, Bool.and_false, Bool.false_and]

/-- Reading a contiguous field after inserting a value under the same mask gives the value cut to the mask. -/
theorem extractField_insertField_maskW {p n : Nat} (hn : p + n ≤ w) (v b : Word w) :
    extractField (insertField v b (maskW w n) p) (maskW w n) p = b &&& maskW w n := by
  apply BitVec.eq_of_getLsbD_eq
  intro i hi
  rw [getLsbD_extractField, getLsbD_insertField, BitVec.getLsbD_and, Nat.add_sub_cancel_left]
  by_cases hm : (maskW w n).getLsbD i = true
  · have hfield : i < n ∧ i < w := by rwa [getLsbD_maskW, decide_eq_true_iff] at hm
    rw [decide_eq_true (by omega), if_pos ⟨Nat.le_add_right p i, hm⟩, Bool.true_and]
  · rw [Bool.eq_false_of_not_eq_true hm, Bool.and_false, Bool.and_false]

end ExtractedWords

/-! ## Masks on the port -/

section PortMasks

variable {ws : Width}

theorem lowBits_eq_zero_iff (v : Port) : lowBits ws v = 0 ↔ truncPort ws v = 0 := by
  rw [lowBits_eq]
  constructor
  · intro h
    rw [← truncPort_zext64 ws (truncPort ws v), h]
    exact BitVec.setWidth_zero ..
  · intro h
    rw [h]
    exact BitVec.setWidth_zero ..

theorem truncPort_ofNat_mask (ws : Width) (n : Nat) :
    truncPort ws (BitVec.ofNat 64 (2 ^ n - 1)) = maskW ws.bits n :=
  BitVec.setWidth_ofNat_of_le (bits_le ws) _

/-- A contiguous mask that fits the word cuts the port itself: nothing above `W` is left. -/
theorem zext64_and_maskW {n : Nat} (hn : n ≤ ws.bits) (v : Port) :
    zext64 (truncPort ws v &&& maskW ws.bits n) = v &&& BitVec.ofNat 64 (2 ^ n - 1) := by
  rw [← zext64_maskW ws hn]
  apply BitVec.eq_of_getLsbD_eq
  intro i _
  rw [getLsbD_zext64, BitVec.getLsbD_and, BitVec.getLsbD_and, getLsbD_truncPort, getLsbD_zext64, getLsbD_maskW]
  by_cases hi : i < ws.bits
  · rw [decide_eq_true hi, Bool.true_and]
  · have hmask : ¬ (i < n ∧ i < ws.bits) := fun h => hi h.2
    rw [decide_eq_false hmask, Bool.and_false, Bool.and_false]

theorem truncPort_sub_one (v : Port) : truncPort ws (v - 1) = truncPort ws v - 1 := by
  have hone : BitVec.setWidth ws.bits (1 : Port) = 1 := BitVec.setWidth_ofNat_of_le (bits_le ws) 1
  rw [truncPort, truncPort, BitVec.sub_eq_add_neg, BitVec.setWidth_add _ _ (bits_le ws),
    BitVec.setWidth_neg_of_le (bits_le ws), hone, ← BitVec.sub_eq_add_neg]

/-- Subtracting 1 on the port and cutting to `W` bits is the subtraction within `W` bits. -/
theorem lowBits_zext64_sub_one (v : Word ws.bits) : lowBits ws (zext64 v - 1) = zext64 (noneableValue v) := by
  rw [lowBits_eq, truncPort_sub_one, truncPort_zext64, noneableValue_eq]

end PortMasks

/-! ## The tests of the extraction commands -/

section FirstTest

variable {failed : Prop} [Decidable failed] (cause : FaultCause) (rest : List (Bool × FaultCause))

/-- A test whose condition is false leaves the fault to the tests after it. -/
theorem firstFault_cons_of_not (h : ¬ failed) : firstFault ((decide failed, cause) :: rest) = firstFault rest := by
  rw [firstFault_cons, decide_eq_false h]
  rfl

/-- A test whose condition is true is the fault, whatever the tests after it. -/
theorem firstFault_cons_of_failed (h : failed) : firstFault ((decide failed, cause) :: rest) = some cause := by
  rw [firstFault_cons, decide_eq_true h]
  rfl

end FirstTest

section FieldTests

variable {ws : Width} {p : Nat} {m : Word ws.bits}

theorem firstFault_fieldTests (hp : p < ws.bits) (hm : m ≠ 0) (hfit : p + popcount m ≤ ws.bits) :
    firstFault (fieldTests ws p m) = none := by
  rw [fieldTests, firstFault_cons_of_not _ _ hp.not_ge, firstFault_cons_of_not _ _ hm,
    firstFault_cons_of_not _ _ hfit.not_gt, firstFault_nil]

theorem firstFault_fieldTests_of_index (hp : ws.bits ≤ p) : firstFault (fieldTests ws p m) = some .badIndex :=
  firstFault_cons_of_failed _ _ hp

theorem firstFault_fieldTests_of_zero (hp : p < ws.bits) (hm : m = 0) :
    firstFault (fieldTests ws p m) = some .zeroMask := by
  rw [fieldTests, firstFault_cons_of_not _ _ hp.not_ge, firstFault_cons_of_failed _ _ hm]

theorem firstFault_fieldTests_of_count (hp : p < ws.bits) (hm : m ≠ 0) (hfit : ws.bits < p + popcount m) :
    firstFault (fieldTests ws p m) = some .badCount := by
  rw [fieldTests, firstFault_cons_of_not _ _ hp.not_ge, firstFault_cons_of_not _ _ hm,
    firstFault_cons_of_failed _ _ hfit]

theorem firstFault_fieldTests_maskW {n : Nat} (hpos : 1 ≤ n) (hn : p + n ≤ ws.bits) :
    firstFault (fieldTests ws p (maskW ws.bits n)) = none := by
  have hle : n ≤ ws.bits := by omega
  exact firstFault_fieldTests (by omega) (maskW_ne_zero hpos hle) (by rwa [popcount_maskW hle])

/-- What a command of a field at `p` under the mask `C` does on an unlocked block: its word and the advanced index when
the field is legal, else the fault of the first failing test (R103, 44_field_insert.md R111). -/
theorem exec_of_fieldTests {i : Instr} {s : State} {v : Word ws.bits} {P : Port → Prop} (hflt : s.block.flt = 0)
    (h : replyTo i s.operands s.block = perform s.block (fieldTests ws p (opM ws s.operands))
      (pureAnswer s.block (zext64 v) (p + popcount (opM ws s.operands))))
    (hP : P (zext64 v)) :
    (p < ws.bits → lowBits ws s.operands.c ≠ 0 → p + onesCount ws s.operands.c ≤ ws.bits →
      ∃ r : Port, exec i s =
        .next { s with response := some (.ok r (BitVec.ofNat 8 (p + onesCount ws s.operands.c))) } ∧ P r) ∧
    (ws.bits ≤ p → exec i s =
      .next { s with block := { s.block with flt := 2 }, response := some (.fault .badIndex) }) ∧
    (p < ws.bits → lowBits ws s.operands.c = 0 → exec i s =
      .next { s with block := { s.block with flt := 3 }, response := some (.fault .zeroMask) }) ∧
    (p < ws.bits → lowBits ws s.operands.c ≠ 0 → ws.bits < p + onesCount ws s.operands.c → exec i s =
      .next { s with block := { s.block with flt := 4 }, response := some (.fault .badCount) }) := by
  rw [Ne, lowBits_eq_zero_iff, ← popcount_truncPort]
  exact ⟨fun hp hm hfit => ⟨_, exec_of_completes hflt (firstFault_fieldTests hp hm hfit) h, hP⟩,
    fun hp => exec_of_fault hflt (firstFault_fieldTests_of_index hp) h,
    fun hp hm => exec_of_fault hflt (firstFault_fieldTests_of_zero hp hm) h,
    fun hp hm hfit => exec_of_fault hflt (firstFault_fieldTests_of_count hp hm hfit) h⟩

end FieldTests

section RangeTests

/-- The tests of EXTR in the order of R101. -/
def extrTests (ws : Width) (p q : Nat) : List (Bool × FaultCause) :=
  [(decide (ws.bits ≤ q), .badIndex), (decide (q < p), .badIndex)]

/-- The tests of EXTV in the order of R102. -/
def extvTests (ws : Width) (p q : Nat) : List (Bool × FaultCause) :=
  [(decide (ws.bits ≤ p), .badIndex), (decide (q = 0), .badCount), (decide (ws.bits < p + q), .badCount)]

variable (ws : Width) (p q : Nat) (ops : Operands) (b : Block)

theorem replyTo_extr : replyTo (.extr ws p q) ops b = perform b (extrTests ws p q)
    (pureAnswer b (zext64 (extractField (opA ws ops) (maskW ws.bits (q - p + 1)) p)) 0) := rfl

theorem replyTo_extv : replyTo (.extv ws p q) ops b = perform b (extvTests ws p q)
    (pureAnswer b (zext64 (extractField (opA ws ops) (maskW ws.bits q) p)) 0) := rfl

variable {ws p q}

theorem firstFault_extrTests (hpq : p ≤ q) (hq : q < ws.bits) : firstFault (extrTests ws p q) = none := by
  rw [extrTests, firstFault_cons_of_not _ _ hq.not_ge, firstFault_singleton_of_not _ hpq.not_gt]

theorem firstFault_extrTests_of_range (h : ws.bits ≤ q ∨ q < p) :
    firstFault (extrTests ws p q) = some .badIndex := by
  by_cases hq : ws.bits ≤ q
  · exact firstFault_cons_of_failed _ _ hq
  · rw [extrTests, firstFault_cons_of_not _ _ hq, firstFault_singleton _ (h.resolve_left hq)]

theorem firstFault_extvTests (hq : 1 ≤ q) (hn : p + q ≤ ws.bits) : firstFault (extvTests ws p q) = none := by
  have hp : ¬ ws.bits ≤ p := by omega
  rw [extvTests, firstFault_cons_of_not _ _ hp, firstFault_cons_of_not _ _ (Nat.ne_of_gt hq),
    firstFault_singleton_of_not _ hn.not_gt]

theorem firstFault_extvTests_of_index (hp : ws.bits ≤ p) : firstFault (extvTests ws p q) = some .badIndex :=
  firstFault_cons_of_failed _ _ hp

theorem firstFault_extvTests_of_count (hp : p < ws.bits) (h : q = 0 ∨ ws.bits < p + q) :
    firstFault (extvTests ws p q) = some .badCount := by
  rw [extvTests, firstFault_cons_of_not _ _ hp.not_ge]
  by_cases hq : q = 0
  · rw [firstFault_cons_of_failed _ _ hq]
  · rw [firstFault_cons_of_not _ _ hq, firstFault_singleton _ (h.resolve_left hq)]

end RangeTests

/-! ## What EXTR and EXTV complete with -/

section RangeCommands

variable {ws : Width} {p q : Nat} {s : State}

theorem exec_extr_of_completes (hflt : s.block.flt = 0) (hpq : p ≤ q) (hq : q < ws.bits) :
    exec (.extr ws p q) s = .next { s with
      response := some (.ok (zext64 (extractField (opA ws s.operands) (maskW ws.bits (q - p + 1)) p)) 0) } :=
  exec_of_completes hflt (firstFault_extrTests hpq hq) (replyTo_extr ..)

theorem exec_extv_of_completes (hflt : s.block.flt = 0) (hq : 1 ≤ q) (hn : p + q ≤ ws.bits) :
    exec (.extv ws p q) s = .next { s with
      response := some (.ok (zext64 (extractField (opA ws s.operands) (maskW ws.bits q) p)) 0) } :=
  exec_of_completes hflt (firstFault_extvTests hq hn) (replyTo_extv ..)

/-- A count of `q` bits from `p` is the inclusive range up to `p + q - 1` (R102). -/
theorem exec_extv_eq_extr (hflt : s.block.flt = 0) (hq : 1 ≤ q) (hn : p + q ≤ ws.bits) :
    exec (.extv ws p q) s = exec (.extr ws p (p + q - 1)) s := by
  have hcount : p + q - 1 - p + 1 = q := by omega
  rw [exec_extv_of_completes hflt hq hn, exec_extr_of_completes hflt (by omega) (by omega), hcount]

end RangeCommands

/-! ## The obligations of the four commands -/

/-- Settles O31: the range is the field of `q - p + 1` bits. -/
theorem extrExtractsTheInclusiveRange : Obligations.ExtrExtractsTheInclusiveRange := by
  refine ⟨fun ws p q hp hq => decode_formatPQ_word (by decide) hp hq ws rfl, fun ws p q s hflt =>
    ⟨fun hpq hq => ⟨_, exec_extr_of_completes hflt hpq hq, fun i => ?_⟩,
      fun h => exec_of_fault hflt (firstFault_extrTests_of_range h) (replyTo_extr ..)⟩⟩
  have hrange : i < q - p + 1 ↔ p + i ≤ q := by omega
  rw [getLsbD_zext64, opA, getLsbD_extractField_maskW (by omega), decide_eq_decide.mpr hrange]

/-- Settles O32: the field of `q` bits, and the agreement with EXTR. -/
theorem extvExtractsCountBits : Obligations.ExtvExtractsCountBits := by
  refine ⟨fun ws p q hp hq => decode_formatPQ_word (by decide) hp hq ws rfl, fun ws p q s hflt =>
    ⟨fun _ hq hn => ⟨_, exec_extv_of_completes hflt hq hn, fun i => ?_, exec_extv_eq_extr hflt hq hn⟩,
      fun hp => exec_of_fault hflt (firstFault_extvTests_of_index hp) (replyTo_extv ..),
      fun hp h => exec_of_fault hflt (firstFault_extvTests_of_count hp h) (replyTo_extv ..)⟩⟩
  rw [getLsbD_zext64, opA, getLsbD_extractField_maskW hn]

/-- Settles O33: a field command whose result is the extracted field. -/
theorem decReadsTheFieldAndAdvances : Obligations.DecReadsTheFieldAndAdvances := by
  refine ⟨fun ws p hp => decode_formatP_word (by decide) hp ws rfl, fun ws p s hflt =>
    exec_of_fieldTests hflt rfl fun i => ?_⟩
  rw [getLsbD_zext64, getLsbD_extractField, getLsbD_opA, getLsbD_opM]
  by_cases hi : p + i < ws.bits
  · have hmask : i < ws.bits := by omega
    rw [decide_eq_true hmask, Bool.true_and]
  · rw [decide_eq_false hi, Bool.false_and, Bool.false_and, Bool.false_and]

/-- Settles O34: a field command whose result is the noneable value of the extracted field. -/
theorem decnSubtractsOneFromTheField : Obligations.DecnSubtractsOneFromTheField := by
  refine ⟨fun ws p hp => decode_formatP_word (by decide) hp ws rfl, fun ws p s hflt =>
    exec_of_fieldTests hflt rfl ?_⟩
  rw [toNat_zext64, toNat_noneableValue, toNat_extractField, opA, opM, toNat_truncPort, toNat_truncPort]

/-! ## The laws of extraction (R105) -/

section Results

variable {ws : Width} {p : Nat} (a b c : Port)

theorem pureR_extr {q : Nat} (hpq : p ≤ q) (hq : q < ws.bits) : pureR (.extr ws p q) a b c =
    some (zext64 (extractField (truncPort ws a) (maskW ws.bits (q - p + 1)) p)) :=
  pureR_of_completes (firstFault_extrTests hpq hq) (replyTo_extr ..)

theorem pureR_extv {q : Nat} (hq : 1 ≤ q) (hn : p + q ≤ ws.bits) : pureR (.extv ws p q) a b c =
    some (zext64 (extractField (truncPort ws a) (maskW ws.bits q) p)) :=
  pureR_of_completes (firstFault_extvTests hq hn) (replyTo_extv ..)

theorem pureR_dec (hf : firstFault (fieldTests ws p (truncPort ws c)) = none) :
    pureR (.dec ws p) a b c = some (zext64 (extractField (truncPort ws a) (truncPort ws c) p)) :=
  pureR_of_completes hf rfl

theorem pureR_decn (hf : firstFault (fieldTests ws p (truncPort ws c)) = none) :
    pureR (.decn ws p) a b c = some (zext64 (noneableValue (extractField (truncPort ws a) (truncPort ws c) p))) :=
  pureR_of_completes hf rfl

theorem pureR_ence (hf : firstFault (fieldTests ws p (truncPort ws c)) = none) :
    pureR (.ence ws p) a b c =
      some (zext64 (insertField (truncPort ws a) (truncPort ws b) (truncPort ws c) p)) :=
  pureR_of_completes hf rfl

end Results

/-- Settles O51: EXTV, EXTR and DEC extract one field when the mask is contiguous, DECN subtracts 1 within `W` bits under
any legal mask, and reading after inserting gives the value cut to the mask. -/
theorem extractionLaws : Obligations.ExtractionLaws := by
  intro ws a b p n hp hpos hn
  have hmask : truncPort ws (BitVec.ofNat 64 (2 ^ n - 1)) = maskW ws.bits n := truncPort_ofNat_mask ws n
  have htests : firstFault (fieldTests ws p (truncPort ws (BitVec.ofNat 64 (2 ^ n - 1)))) = none := by
    rw [hmask]
    exact firstFault_fieldTests_maskW hpos hn
  refine ⟨⟨_, pureR_extv a 0 0 hpos hn, ?_, ?_⟩, fun m hm hfit => ?_, ?_⟩
  · have hcount : p + n - 1 - p + 1 = n := by omega
    rw [pureR_extr a 0 0 (by omega) (by omega), hcount]
  · rw [pureR_dec a 0 _ htests, hmask]
  · rw [Ne, lowBits_eq_zero_iff] at hm
    rw [← popcount_truncPort] at hfit
    have hf := firstFault_fieldTests hp hm hfit
    exact ⟨_, pureR_dec a 0 m hf, by rw [pureR_decn a 0 m hf, lowBits_zext64_sub_one]⟩
  · rw [pureR_ence a b _ htests, Option.bind_some, pureR_dec _ 0 _ htests, truncPort_zext64, hmask,
      extractField_insertField_maskW hn, zext64_and_maskW (by omega)]

end Sys2Proof.Machine
end

section
/-! Proofs of the field insertion statements (44_field_insert.md): ENCE, ENCF, ENCN (R111 to R113) and the round trips
with the extractions (R115). -/

namespace Sys2Proof.Machine

/-! ## The words of the insertion commands -/

section InsertedWords

variable {w : Nat} {v m : Word w} {p : Nat}

/-- Clearing bits that are 0 already changes nothing. -/
theorem and_notW_of_and_eq_zero {u : Word w} (h : v &&& u = 0) : v &&& notW u = v := by
  calc v &&& notW u = (v &&& u) ||| (v &&& notW u) := by rw [h]; exact BitVec.zero_or.symm
    _ = v := by rw [notW_eq, ← BitVec.and_or_distrib_left, BitVec.or_not_self, BitVec.and_allOnes]

/-- Into a zero field, OR-only insertion is clear-then-set insertion (R112). -/
theorem orField_eq_insertField (b : Word w) (h : v &&& shlW m p = 0) : orField v b m p = insertField v b m p := by
  rw [orField, insertField, and_notW_of_and_eq_zero h]

/-- A mask of `n` bits keeps a number of at most `n` bits. -/
theorem and_maskW_of_toNat_le {n : Nat} (hn : n ≤ w) (h : v.toNat ≤ 2 ^ n - 1) : v &&& maskW w n = v := by
  have hlt : v.toNat < 2 ^ n := Nat.lt_of_le_sub_one (Nat.two_pow_pos n) h
  apply BitVec.eq_of_toNat_eq
  rw [BitVec.toNat_and, toNat_maskW hn, Nat.and_two_pow_sub_one_eq_mod, Nat.mod_eq_of_lt hlt]

/-- DECN after ENCN of a value whose code fits the field gives the value back. -/
theorem noneableValue_extractField_insertField {n : Nat} {b : Word w} (hn : p + n ≤ w)
    (h : (noneableCode b).toNat ≤ 2 ^ n - 1) :
    noneableValue (extractField (insertField v (noneableCode b) (maskW w n) p) (maskW w n) p) = b := by
  rw [extractField_insertField_maskW hn, and_maskW_of_toNat_le (by omega) h, noneableValue_noneableCode]

/-- A field whose bit-space does not meet the inserted one reads as before (R115). -/
theorem extractField_insertField_of_disjoint {m' : Word w} {p' : Nat} (b : Word w)
    (h : shlW m' p' &&& shlW m p = 0) : extractField (insertField v b m p) m' p' = extractField v m' p' := by
  apply BitVec.eq_of_getLsbD_eq
  intro i _
  rw [getLsbD_extractField, getLsbD_extractField]
  by_cases hread : m'.getLsbD i = true
  · congr 1
    by_cases hword : p' + i < w
    · have hbit : (shlW m' p' &&& shlW m p).getLsbD (p' + i) = false := by rw [h]; exact BitVec.getLsbD_zero
      rw [BitVec.getLsbD_and, getLsbD_shlW, getLsbD_shlW, Nat.add_sub_cancel_left, hread] at hbit
      have houtside : ¬ (p ≤ p' + i ∧ m.getLsbD (p' + i - p) = true) := by
        rintro ⟨hp, hm⟩
        simp [hword, hp, hm] at hbit
      rw [getLsbD_insertField, decide_eq_true hword, if_neg houtside, Bool.true_and]
    · rw [BitVec.getLsbD_of_ge _ _ (Nat.le_of_not_lt hword), BitVec.getLsbD_of_ge _ _ (Nat.le_of_not_lt hword)]
  · rw [Bool.eq_false_of_not_eq_true hread, Bool.and_false, Bool.and_false]

end InsertedWords

/-! ## Insertion of truncated ports -/

section TruncatedPorts

variable {ws : Width} {p : Nat}

theorem truncPort_and (a b : Port) : truncPort ws (a &&& b) = truncPort ws a &&& truncPort ws b := BitVec.setWidth_and

theorem truncPort_shiftLeft (v : Port) (p : Nat) : truncPort ws (v <<< p) = shlW (truncPort ws v) p := by
  rw [shlW_eq]
  exact BitVec.setWidth_shiftLeft_of_le (bits_le ws)

/-- The stored code of a truncated port is the truncation of the port's successor (R113). -/
theorem noneableCode_truncPort (b : Port) : noneableCode (truncPort ws b) = truncPort ws (b + 1) := by
  have hone : BitVec.setWidth ws.bits (1 : Port) = 1 := BitVec.setWidth_ofNat_of_le (bits_le ws) 1
  rw [noneableCode_eq, truncPort, truncPort, BitVec.setWidth_add _ _ (bits_le ws), hone]

theorem toNat_noneableCode_truncPort (b : Port) :
    (noneableCode (truncPort ws b)).toNat = (b.toNat + 1) % 2 ^ ws.bits := by
  rw [noneableCode, BitVec.toNat_ofNat, toNat_truncPort, Nat.mod_add_mod]

/-- A port whose bits under the moved mask are 0 has a zero field. -/
theorem truncPort_and_shlW_of_bits {a c : Port}
    (h : ∀ i < ws.bits, p ≤ i → c.getLsbD (i - p) = true → a.getLsbD i = false) :
    truncPort ws a &&& shlW (truncPort ws c) p = 0 := by
  apply BitVec.eq_of_getLsbD_eq
  intro i hi
  rw [BitVec.getLsbD_and, getLsbD_shlW, getLsbD_truncPort, getLsbD_truncPort]
  by_cases hfield : p ≤ i ∧ c.getLsbD (i - p) = true
  · simp [h i hi hfield.1 hfield.2]
  · have hmask : (decide (p ≤ i ∧ i < ws.bits) && (decide (i - p < ws.bits) && c.getLsbD (i - p))) = false := by
      rw [Bool.eq_false_iff, Ne, Bool.and_eq_true, Bool.and_eq_true, decide_eq_true_iff]
      rintro ⟨⟨hp, -⟩, -, hm⟩
      exact hfield ⟨hp, hm⟩
    rw [hmask, Bool.and_false]
    exact BitVec.getLsbD_zero.symm

/-- Words on the port that do not meet are fields of the truncated words that do not meet. -/
theorem truncPort_and_shlW_of_port {a c : Port} (h : a &&& (c <<< p) = 0) :
    truncPort ws a &&& shlW (truncPort ws c) p = 0 := by
  rw [← truncPort_shiftLeft, ← truncPort_and, h]
  exact BitVec.setWidth_zero ..

theorem lowBits_shiftLeft_lowBits (c : Port) : lowBits ws (lowBits ws c <<< p) = zext64 (shlW (truncPort ws c) p) := by
  rw [lowBits_eq, truncPort_shiftLeft, lowBits_eq, truncPort_zext64]

/-- Clear-then-set on the ports: the value's bit under the moved mask, elsewhere the word's own. -/
theorem getLsbD_insertField_truncPort (a b c : Port) (i : Nat) :
    (insertField (truncPort ws a) (truncPort ws b) (truncPort ws c) p).getLsbD i = (decide (i < ws.bits) &&
      if p ≤ i ∧ c.getLsbD (i - p) = true then b.getLsbD (i - p) else a.getLsbD i) := by
  rw [getLsbD_insertField]
  by_cases hi : i < ws.bits
  · have hsource : i - p < ws.bits := Nat.lt_of_le_of_lt (Nat.sub_le i p) hi
    rw [getLsbD_truncPort, getLsbD_truncPort, getLsbD_truncPort, decide_eq_true hsource, decide_eq_true hi]
    simp only [Bool.true_and]
  · rw [decide_eq_false hi, Bool.false_and, Bool.false_and]

/-- OR-only insertion on the ports: the word's own bit, or the value's under the moved mask. -/
theorem getLsbD_orField_truncPort (a b c : Port) (i : Nat) :
    (orField (truncPort ws a) (truncPort ws b) (truncPort ws c) p).getLsbD i = (decide (i < ws.bits) &&
      (a.getLsbD i || (decide (p ≤ i) && c.getLsbD (i - p) && b.getLsbD (i - p)))) := by
  rw [getLsbD_orField, getLsbD_truncPort, getLsbD_truncPort, getLsbD_truncPort]
  by_cases hi : i < ws.bits
  · have hsource : i - p < ws.bits := Nat.lt_of_le_of_lt (Nat.sub_le i p) hi
    simp only [hi, hsource, and_true, decide_true, Bool.true_and, Bool.and_assoc, Bool.and_comm (c.getLsbD _)]
  · have hfield : ¬ (p ≤ i ∧ i < ws.bits) := fun h => hi h.2
    rw [decide_eq_false hi, decide_eq_false hfield, Bool.false_and, Bool.false_and, Bool.false_and, Bool.false_or]

end TruncatedPorts

/-! ## The obligations of the three commands -/

/-- Settles O35: a field command whose result is the clear-then-set insertion of `B`. -/
theorem enceClearsThenSetsTheField : Obligations.EnceClearsThenSetsTheField := by
  refine ⟨fun ws p hp => decode_formatP_word (by decide) hp ws rfl, fun ws p s hflt =>
    exec_of_fieldTests hflt rfl fun i => ?_⟩
  rw [getLsbD_zext64, opA, opB, opM, getLsbD_insertField_truncPort]

/-- When the field of `A` is 0, ENCF is ENCE (R112). -/
theorem exec_encf_eq_ence {ws : Width} {p : Nat} {s : State}
    (h : opA ws s.operands &&& shlW (opM ws s.operands) p = 0) : exec (.encf ws p) s = exec (.ence ws p) s := by
  have hreply : replyEncf ws p s.operands s.block = replyEnce ws p s.operands s.block := by
    rw [replyEncf, replyEnce, orField_eq_insertField _ h]
  exact congrArg (deliver s) hreply

/-- Settles O36: a field command whose result is the OR-only insertion of `B`, and the agreement with ENCE. -/
theorem encfOrsTheFieldIn : Obligations.EncfOrsTheFieldIn := by
  refine ⟨fun ws p hp => decode_formatP_word (by decide) hp ws rfl, fun ws p s hflt =>
    exec_of_fieldTests hflt rfl ⟨fun i => ?_, fun hzero => exec_encf_eq_ence (truncPort_and_shlW_of_bits hzero)⟩⟩
  rw [getLsbD_zext64, opA, opB, opM, getLsbD_orField_truncPort]

/-- Settles O37: a field command whose result is the clear-then-set insertion of the stored code of `B`. -/
theorem encnStoresTheValuePlusOne : Obligations.EncnStoresTheValuePlusOne := by
  refine ⟨fun ws p hp => decode_formatP_word (by decide) hp ws rfl, fun ws p s hflt =>
    exec_of_fieldTests hflt rfl fun i => ?_⟩
  rw [getLsbD_zext64, opA, opB, opM, noneableCode_truncPort, getLsbD_insertField_truncPort]

/-! ## Insertion, then extraction (R115) -/

/-- A command whose tests find a fault has no result. -/
theorem pureR_of_fault {i : Instr} {tests : List (Bool × FaultCause)} {ans : Answer} {cause : FaultCause} {a b c : Port}
    (hf : firstFault tests = some cause)
    (h : replyTo i ⟨a, b, c⟩ Block.reset = perform Block.reset tests ans) : pureR i a b c = none := by
  have he := exec_of_fault (s := { State.reset with operands := ⟨a, b, c⟩ }) rfl hf h
  simp only [pureR, pureResult, he, Option.map_none]

/-- `R2` of a command of a contiguous field is the index after the field. -/
theorem pureResult_snd_of_maskW {i : Instr} {ws : Width} {p n : Nat} {a b c r : Port} (hpos : 1 ≤ n)
    (hn : p + n ≤ ws.bits) (hc : truncPort ws c = maskW ws.bits n)
    (h : replyTo i ⟨a, b, c⟩ Block.reset = perform Block.reset (fieldTests ws p (truncPort ws c))
      (pureAnswer Block.reset r (p + popcount (truncPort ws c)))) :
    (pureResult i ⟨a, b, c⟩).map Prod.snd = some (BitVec.ofNat 8 (p + n)) := by
  rw [hc, popcount_maskW (by omega)] at h
  have he := exec_of_completes (s := { State.reset with operands := ⟨a, b, c⟩ }) rfl
    (firstFault_fieldTests_maskW hpos hn) h
  simp only [pureResult, he, Option.map_some, smallR2]

section Results

variable {ws : Width} {p : Nat} (a b c : Port)

theorem pureR_encn (hf : firstFault (fieldTests ws p (truncPort ws c)) = none) : pureR (.encn ws p) a b c =
    some (zext64 (insertField (truncPort ws a) (noneableCode (truncPort ws b)) (truncPort ws c) p)) :=
  pureR_of_completes hf rfl

theorem pureR_encf_eq_ence (h : truncPort ws a &&& shlW (truncPort ws c) p = 0) :
    pureR (.encf ws p) a b c = pureR (.ence ws p) a b c := by
  have he := exec_encf_eq_ence (s := { State.reset with operands := ⟨a, b, c⟩ }) h
  rw [pureR, pureR, pureResult, pureResult, he]

/-- DEC looks at the field of `A` only: a fault does not depend on `A`, and the result is the field. -/
theorem pureR_dec_congr {a a' : Port}
    (h : extractField (truncPort ws a) (truncPort ws c) p = extractField (truncPort ws a') (truncPort ws c) p) :
    pureR (.dec ws p) a b c = pureR (.dec ws p) a' b c := by
  cases hf : firstFault (fieldTests ws p (truncPort ws c)) with
  | none => rw [pureR_dec a b c hf, pureR_dec a' b c hf, h]
  | some cause =>
    have hnone (x : Port) : pureR (.dec ws p) x b c = none := pureR_of_fault hf rfl
    rw [hnone, hnone]

end Results

/-- Settles O52: the first law is that of R105, the second is the first for ENCF as ENCE, and the others are the laws of
the words behind the results. -/
theorem insertThenExtractRoundTrip : Obligations.InsertThenExtractRoundTrip := by
  intro ws a b p n hpos hn m hm
  have hmask : truncPort ws m = maskW ws.bits n := by rw [hm, truncPort_ofNat_mask]
  have htests : firstFault (fieldTests ws p (truncPort ws m)) = none := by
    rw [hmask]
    exact firstFault_fieldTests_maskW hpos hn
  have hence : (pureR (.ence ws p) a b m).bind (fun r => pureR (.dec ws p) r 0 m) = some (b &&& m) := by
    obtain ⟨_, _, hround⟩ := extractionLaws ws a b p n (by omega) hpos hn
    rw [hm, hround]
  refine ⟨hence, fun hzero => ?_, fun hcode => ?_, fun p' m' hdisjoint => ?_, ?_⟩
  · rw [pureR_encf_eq_ence a b m (truncPort_and_shlW_of_port hzero), hence]
  · have hcapacity : m.toNat = 2 ^ n - 1 := by
      rw [hm, ← zext64_maskW ws (by omega), toNat_zext64, toNat_maskW (by omega)]
    have hfits : (noneableCode (truncPort ws b)).toNat ≤ 2 ^ n - 1 := by
      rwa [toNat_noneableCode_truncPort, ← hcapacity]
    rw [pureR_encn a b m htests, Option.bind_some, pureR_decn _ 0 m htests, truncPort_zext64, hmask,
      noneableValue_extractField_insertField hn hfits, lowBits_eq]
  · have hwords : shlW (truncPort ws m') p' &&& shlW (truncPort ws m) p = 0 := by
      rw [lowBits_shiftLeft_lowBits] at hdisjoint
      simpa using truncPort_and_shlW_of_port (ws := ws) hdisjoint
    rw [pureR_ence a b m htests, Option.bind_some]
    apply pureR_dec_congr
    rw [truncPort_zext64, extractField_insertField_of_disjoint _ hwords]
  · have hr2 {i : Instr} {r : Port} := pureResult_snd_of_maskW (i := i) (a := a) (b := b) (r := r) hpos hn hmask
    exact ⟨hr2 rfl, hr2 rfl, hr2 rfl, hr2 rfl, hr2 rfl⟩

end Sys2Proof.Machine
end

section
/-! Proofs of the encoder command statements (45_bitfield_encoder_fsm.md): HINIT, HSEED, HENC, HENCN, HDEC, HDECN, HGET
(R123 to R129). -/

namespace Sys2Proof.Machine

/-- The word `op * 2^24 + ws * 2^16` of an opcode of format H decodes to that opcode's command (R51, R53, R56). -/
theorem decode_formatH_word {op : Nat} {k : Width → Instr} {ws : Width} (hop : op < 256)
    (hws : encoderWidth ws = true) (hk : decodeOp op ws.code 0 0 = formatH ws.code 0 0 k) :
    decode (BitVec.ofNat 32 (op * 2 ^ 24 + ws.code * 2 ^ 16)) = .ok (k ws) := by
  have hword : BitVec.ofNat 32 (op * 2 ^ 24 + ws.code * 2 ^ 16) = packWord op ws.code 0 0 := by
    rw [packWord, Nat.zero_mul, Nat.add_zero]
  rw [hword, decode_packWord hop ws.code_lt (by decide) (by decide), hk, formatH_code hws]

/-! ## What the encoder commands do on an unlocked block -/

/-- On an unlocked block, a command whose tests pass takes its effect as a whole (20_memory.md R44). -/
theorem exec_of_effect {i : Instr} {s : State} {tests : List (Bool × FaultCause)} {ans : Answer}
    (hflt : s.block.flt = 0) (hf : firstFault tests = none)
    (h : replyTo i s.operands s.block = perform s.block tests ans) :
    exec i s = .next { s with
      block := { s.block with h := ans.h, cur := ans.cur }, response := some (.ok ans.r ans.r2) } := by
  rw [exec_eq_deliver, h, perform_of_complete _ _ _ hflt hf, complete, deliver_eq]

section EncoderTests

variable {ws : Width} {cur : Nat} {m : Word ws.bits}

theorem firstFault_encoderTests (hm : m ≠ 0) (hfit : cur + popcount m ≤ ws.bits) :
    firstFault (encoderTests ws cur m) = none := by
  rw [encoderTests, firstFault_cons_of_not _ _ hm, firstFault_singleton_of_not _ hfit.not_gt]

theorem firstFault_encoderTests_of_zero (hm : m = 0) : firstFault (encoderTests ws cur m) = some .zeroMask :=
  firstFault_cons_of_failed _ _ hm

theorem firstFault_encoderTests_of_overflow (hm : m ≠ 0) (hfit : ws.bits < cur + popcount m) :
    firstFault (encoderTests ws cur m) = some .cursorOverflow := by
  rw [encoderTests, firstFault_cons_of_not _ _ hm, firstFault_singleton _ hfit]

/-- What a command of a field at the cursor does on an unlocked block: its result, its handle and the advanced cursor
when the field is legal, else the fault of the first failing test (R125, R132). -/
theorem exec_of_encoderTests {i : Instr} {s : State} {r h : Port} (hflt : s.block.flt = 0)
    (hreply : replyTo i s.operands s.block =
      perform s.block (encoderTests ws (cursor s.block) (opM ws s.operands))
        (encoderAnswer r (advancedCursor ws s.operands s.block) h (advancedCursor ws s.operands s.block))) :
    (lowBits ws s.operands.c ≠ 0 → s.block.cur.toNat + onesCount ws s.operands.c ≤ ws.bits → exec i s =
      .next { s with
        block := { s.block with h := h, cur := BitVec.ofNat 7 (s.block.cur.toNat + onesCount ws s.operands.c) }
        response := some (.ok r (BitVec.ofNat 8 (s.block.cur.toNat + onesCount ws s.operands.c))) }) ∧
    (lowBits ws s.operands.c = 0 → exec i s =
      .next { s with block := { s.block with flt := 3 }, response := some (.fault .zeroMask) }) ∧
    (lowBits ws s.operands.c ≠ 0 → ws.bits < s.block.cur.toNat + onesCount ws s.operands.c → exec i s =
      .next { s with block := { s.block with flt := 5 }, response := some (.fault .cursorOverflow) }) := by
  rw [Ne, lowBits_eq_zero_iff, ← popcount_truncPort]
  exact ⟨fun hm hfit => exec_of_effect hflt (firstFault_encoderTests hm hfit) hreply,
    fun hm => exec_of_fault hflt (firstFault_encoderTests_of_zero hm) hreply,
    fun hm hfit => exec_of_fault hflt (firstFault_encoderTests_of_overflow hm hfit) hreply⟩

end EncoderTests

/-! ## The bits that they write and read -/

section HandleBits

variable (ws : Width) (p : Nat)

/-- The handle after an insertion at `p`: the value's bit under the moved mask, every other bit as it was, those from
`W` up included (R122, R125). -/
theorem getLsbD_handleWithLow_insertField (block : Block) (b c : Port) (i : Nat) :
    (handleWithLow ws block (insertField (handleLow ws block) (truncPort ws b) (truncPort ws c) p)).getLsbD i =
      if p ≤ i ∧ i < ws.bits ∧ c.getLsbD (i - p) = true then b.getLsbD (i - p) else block.h.getLsbD i := by
  rw [getLsbD_handleWithLow, handleLow, getLsbD_insertField_truncPort]
  by_cases hi : i < ws.bits
  · simp only [hi, decide_true, Bool.true_and, true_and, if_true]
  · simp only [hi, false_and, and_false, if_false]

/-- Extraction of truncated ports: a bit below `W` has its mask bit below `W`. -/
theorem getLsbD_extractField_truncPort (v c : Port) (i : Nat) :
    (extractField (truncPort ws v) (truncPort ws c) p).getLsbD i =
      (decide (p + i < ws.bits) && v.getLsbD (p + i) && c.getLsbD i) := by
  rw [getLsbD_extractField, getLsbD_truncPort, getLsbD_truncPort]
  by_cases hi : p + i < ws.bits
  · have hmask : i < ws.bits := by omega
    rw [decide_eq_true hmask, Bool.true_and]
  · rw [decide_eq_false hi, Bool.false_and, Bool.false_and, Bool.false_and]

end HandleBits

/-! ## The obligations -/

/-- Settles O38: only one word spells HINIT, whose effect is the empty session. -/
theorem hinitClearsHandleAndCursor : Obligations.HinitClearsHandleAndCursor := by
  refine ⟨fun cmd => ⟨fun h => ?_, fun h => ?_⟩, fun s => ⟨fun hflt => ?_, fun hflt => ?_⟩⟩
  · obtain ⟨_, hword⟩ := encodeOfDecodeIsTheWord cmd .hinit h
    exact hword.symm
  · rw [h]
    exact decodeOfEncodeIsTheCommand .hinit rfl
  · exact exec_of_effect (ans := encoderAnswer 0 0 0 0) hflt firstFault_nil rfl
  · rw [exec_eq_deliver, replyTo_of_locked .hinit _ hflt]
    rfl

/-- Settles O39: HSEED has no test, and its handle is the zero-extended truncation of `A`. -/
theorem hseedLoadsTheWordAndRestartsTheCursor : Obligations.HseedLoadsTheWordAndRestartsTheCursor := by
  refine ⟨fun ws hws => decode_formatH_word (by decide) hws rfl, fun ws s _ hflt => ?_⟩
  rw [lowBits_eq]
  exact exec_of_effect (ans := encoderAnswer 0 0 (zext64 (opA ws s.operands)) 0) hflt firstFault_nil rfl

/-- Settles O44: HGET has no test and a pure answer. -/
theorem hgetReadsOutHandleAndCursor : Obligations.HgetReadsOutHandleAndCursor := by
  refine ⟨fun ws hws => decode_formatH_word (by decide) hws rfl, fun ws s _ hflt => ?_⟩
  rw [lowBits_eq]
  exact exec_of_completes hflt firstFault_nil rfl

/-- Settles O40: a command of a field at the cursor whose handle is the insertion of `B`. -/
theorem hencAppendsAFieldAtTheCursor : Obligations.HencAppendsAFieldAtTheCursor := by
  refine ⟨fun ws hws => decode_formatH_word (by decide) hws rfl, fun ws s _ hflt => ?_⟩
  obtain ⟨hok, hfaults⟩ := exec_of_encoderTests (i := .henc ws) hflt rfl
  exact ⟨fun hm hfit => ⟨_, hok hm hfit, getLsbD_handleWithLow_insertField ws _ _ _ _⟩, hfaults⟩

/-- Settles O41: a command of a field at the cursor whose handle is the insertion of the stored code of `B`. -/
theorem hencnAppendsANoneableField : Obligations.HencnAppendsANoneableField := by
  refine ⟨fun ws hws => decode_formatH_word (by decide) hws rfl, fun ws s _ hflt => ?_⟩
  obtain ⟨hok, hfaults⟩ := exec_of_encoderTests (i := .hencn ws) hflt rfl
  refine ⟨fun hm hfit => ⟨_, hok hm hfit, ?_⟩, hfaults⟩
  rw [opB, noneableCode_truncPort]
  exact getLsbD_handleWithLow_insertField ws _ _ _ _

/-- Settles O42: a command of a field at the cursor whose result is the extracted field. -/
theorem hdecReadsTheFieldAtTheCursor : Obligations.HdecReadsTheFieldAtTheCursor := by
  refine ⟨fun ws hws => decode_formatH_word (by decide) hws rfl, fun ws s _ hflt => ?_⟩
  obtain ⟨hok, hfaults⟩ := exec_of_encoderTests (i := .hdec ws) hflt rfl
  refine ⟨fun hm hfit => ⟨_, hok hm hfit, fun i => ?_⟩, hfaults⟩
  rw [getLsbD_zext64]
  exact getLsbD_extractField_truncPort ws _ _ _ i

/-- Settles O43: a command of a field at the cursor whose result is the noneable value of the extracted field. -/
theorem hdecnReadsANoneableFieldAtTheCursor : Obligations.HdecnReadsANoneableFieldAtTheCursor := by
  refine ⟨fun ws hws => decode_formatH_word (by decide) hws rfl, fun ws s _ hflt => ?_⟩
  obtain ⟨hok, hfaults⟩ := exec_of_encoderTests (i := .hdecn ws) hflt rfl
  refine ⟨fun hm hfit => ⟨_, hok hm hfit, ?_⟩, hfaults⟩
  rw [toNat_zext64, toNat_noneableValue, toNat_extractField, handleLow, opM, toNat_truncPort, toNat_truncPort, cursor]

end Sys2Proof.Machine
end

section
/-! Proofs of the cursor statements (45_bitfield_encoder_fsm.md R121, R130): what a completed command does to `CUR`, and
the sum of the advances over a session. -/

namespace Sys2Proof.Machine

/-! ## Which outcome of the frame a response shows -/

section Outcome

variable {b : Block} {tests : List (Bool × FaultCause)} {ans : Answer}

/-- Only a command whose tests pass on an unlocked block answers OK, and then it has taken effect. -/
theorem perform_of_ok {r : Port} {r2 : SmallResult} (h : (perform b tests ans).response = .ok r r2) :
    firstFault tests = none ∧ perform b tests ans = complete ans b := by
  rcases perform_cases b tests ans with ⟨_, e⟩ | ⟨_, cause, _, e⟩ | ⟨_, hf, e⟩
  · rw [e, answerLocked_response] at h
    cases h
  · rw [e, raiseFault_response] at h
    cases h
  · exact ⟨hf, e⟩

/-- A fault and a LOCKED answer leave the cursor (R130). -/
theorem perform_cur_of_not_ok (h : ∀ r r2, (perform b tests ans).response ≠ .ok r r2) :
    (perform b tests ans).block.cur = b.cur := by
  rcases perform_cases b tests ans with ⟨_, e⟩ | ⟨_, cause, _, e⟩ | ⟨_, _, e⟩
  · rw [e, answerLocked_block]
  · rw [e, raiseFault_cur]
  · exact absurd (by rw [e, complete_response]) (h ans.r ans.r2)

/-- The status is 0 exactly in an OK response (60_exceptions.md R150). -/
theorem exists_ok_of_statusOf_eq_zero {x : Response} (h : statusOf x = 0) : ∃ r r2, x = .ok r r2 := by
  cases x with
  | ok r r2 => exact ⟨r, r2, rfl⟩
  | fault cause => exact absurd h (faultCode_ne_zero cause)
  | locked => exact absurd h (by decide)

end Outcome

/-! ## The cursor after one command -/

section Cursor

variable {i : Instr} {ws : Width} {ops : Operands} {b : Block} {r : Port} {r2 : SmallResult}

/-- HENC, HENCN, HDEC, HDECN at the command's own width (R125 to R128). -/
theorem replyTo_of_advancesCursor_of_widthOf (ha : advancesCursor i = true) (hw : widthOf i = some ws)
    (ops : Operands) (b : Block) :
    ∃ r h, replyTo i ops b = perform b (encoderTests ws (cursor b) (opM ws ops))
      (encoderAnswer r (advancedCursor ws ops b) h (advancedCursor ws ops b)) := by
  cases i with
  | henc v | hencn v | hdec v | hdecn v =>
    cases hw
    exact ⟨_, _, rfl⟩
  | _ => cases ha

/-- A number of at most `W` is its own 7-bit word. -/
theorem toNat_ofNat_seven {n : Nat} (hn : n ≤ ws.bits) : (BitVec.ofNat 7 n).toNat = n := by
  have hlt : n < 2 ^ 7 := lt_of_le_of_lt (hn.trans (bits_le ws)) (by decide)
  rw [BitVec.toNat_ofNat, Nat.mod_eq_of_lt hlt]

theorem replyTo_cur_of_startsSession (hs : startsSession i = true) (h : (replyTo i ops b).response = .ok r r2) :
    (replyTo i ops b).block.cur = 0 := by
  obtain ⟨handle, e⟩ := replyTo_of_startsSession ops b hs
  rw [e] at h ⊢
  obtain ⟨_, hcomplete⟩ := perform_of_ok h
  rw [hcomplete]
  rfl

/-- The tests of a completed command bound the advanced cursor, so the 7 bits of `CUR` hold it. -/
theorem replyTo_cur_of_advancesCursor (ha : advancesCursor i = true) (hw : widthOf i = some ws)
    (h : (replyTo i ops b).response = .ok r r2) :
    1 ≤ onesCount ws ops.c ∧ b.cur.toNat + onesCount ws ops.c ≤ ws.bits ∧
      (replyTo i ops b).block.cur.toNat = b.cur.toNat + onesCount ws ops.c := by
  obtain ⟨_, _, e⟩ := replyTo_of_advancesCursor_of_widthOf ha hw ops b
  rw [e] at h ⊢
  obtain ⟨hf, hcomplete⟩ := perform_of_ok h
  obtain ⟨hm, hfit⟩ := encoderTests_none hf
  rw [hcomplete, ← popcount_truncPort]
  exact ⟨popcount_pos hm, hfit, toNat_ofNat_seven hfit⟩

theorem replyTo_cur_of_not_ok (h : ∀ r r2, (replyTo i ops b).response ≠ .ok r r2) :
    (replyTo i ops b).block.cur = b.cur := by
  obtain ⟨tests, ans, e⟩ := replyTo_eq_perform i ops b
  rw [e] at h ⊢
  exact perform_cur_of_not_ok h

/-- The cursor's half of the invariant of R23 needs nothing of the latch: a locked block keeps its cursor. -/
theorem replyTo_cur_le (i : Instr) (ops : Operands) (h : b.cur.toNat ≤ 64) :
    (replyTo i ops b).block.cur.toNat ≤ 64 := by
  by_cases hflt : b.flt = 0
  · have hinv : BlockInvariant b := ⟨h, by rw [hflt]; exact Nat.zero_le 6⟩
    exact (replyTo_keeps_invariant i ops hinv).1
  · rwa [replyTo_of_locked i ops hflt]

/-- A completed command inside a session moves the cursor by its advance (R121). -/
theorem replyTo_cur_eq_add_cursorAdvance (hs : startsSession i = false)
    (h : (replyTo i ops b).response = .ok r r2) :
    (replyTo i ops b).block.cur.toNat = b.cur.toNat + cursorAdvance i ops := by
  cases hw : widthOf i with
  | none =>
    cases i with
    | hinit => cases hs
    | _ => cases hw
  | some ws =>
    cases ha : advancesCursor i with
    | true =>
      obtain ⟨_, _, hcur⟩ := replyTo_cur_of_advancesCursor ha hw h
      simp only [hcur, cursorAdvance, hw, ha, if_true]
    | false =>
      simp only [replyTo_keeps_cur ops b hs ha, cursorAdvance, hw, ha, Bool.false_eq_true, if_false, Nat.add_zero]

end Cursor

/-! ## Runs of encoded commands -/

section Run

variable {x : HostInput} {b b' : Block} {r : Response}

theorem blockStep_encode {i : Instr} (hi : i.wellFormed = true) (ops : Operands) (b : Block) :
    blockStep (.command (encode i) ops) b = (some (replyTo i ops b).response, (replyTo i ops b).block) := by
  rw [blockStep, replyToWord_of_ok (decodeOfEncodeIsTheCommand i hi)]

theorem blockRun_cons (h : blockStep x b = (some r, b')) (xs : List HostInput) :
    blockRun (x :: xs) b = (r :: (blockRun xs b').1, (blockRun xs b').2) := by
  rw [blockRun, h]
  rfl

/-- A run of completed commands without a session start moves the cursor by the sum of the advances (R130). -/
theorem blockRun_cur_eq_add_sum (cmds : List (Instr × Operands)) (b : Block)
    (hcmds : ∀ c ∈ cmds, c.1.wellFormed = true ∧ startsSession c.1 = false)
    (hok : ∀ x ∈ (blockRun (cmds.map fun c => .command (encode c.1) c.2) b).1, statusOf x = 0) :
    (blockRun (cmds.map fun c => .command (encode c.1) c.2) b).2.cur.toNat =
      b.cur.toNat + (cmds.map fun c => cursorAdvance c.1 c.2).sum := by
  induction cmds generalizing b with
  | nil => rfl
  | cons c cmds ih =>
    obtain ⟨⟨hwf, hs⟩, hrest⟩ := List.forall_mem_cons.mp hcmds
    rw [List.map_cons, blockRun_cons (blockStep_encode hwf c.2 b)] at hok ⊢
    obtain ⟨hfirst, hlater⟩ := List.forall_mem_cons.mp hok
    obtain ⟨r, r2, hr⟩ := exists_ok_of_statusOf_eq_zero hfirst
    rw [ih _ hrest hlater, replyTo_cur_eq_add_cursorAdvance hs hr, List.map_cons, List.sum_cons, Nat.add_assoc]

end Run

/-! ## The obligations -/

/-- Settles O6: each clause is what a completed command of that kind leaves in the cursor. -/
theorem cursorMovesOnlyForwardInASession : Obligations.CursorMovesOnlyForwardInASession := by
  refine ⟨fun s t rest hp hstep => ?_, fun i s t r r2 ht hresp => ?_⟩
  · rw [step_of_reset hp] at hstep
    cases hstep
    rfl
  · obtain rfl := (exec_next_iff i s t).mp ht
    have hok : (replyTo i s.operands s.block).response = .ok r r2 := Option.some.inj hresp
    refine ⟨fun hs => replyTo_cur_of_startsSession hs hok, fun ws ha hw => ?_,
      fun hs ha => replyTo_keeps_cur _ _ hs ha⟩
    obtain ⟨hpos, _, hcur⟩ := replyTo_cur_of_advancesCursor ha hw hok
    exact ⟨hpos, hcur⟩

/-- Settles O5: one command by its outcome, a run by induction on the block machine's run of it. -/
theorem cursorStaysWithinWidth : Obligations.CursorStaysWithinWidth := by
  refine ⟨fun i s t hcur ht => ?_, fun cmds s u rs hcmds _ hrun hok => ?_⟩
  · obtain rfl := (exec_next_iff i s t).mp ht
    refine ⟨replyTo_cur_le i _ hcur,
      fun hne => replyTo_cur_of_not_ok fun r r2 h => hne r r2 (congrArg some h), fun ws r r2 ha hw hresp => ?_⟩
    obtain ⟨_, hfit, hadvance⟩ := replyTo_cur_of_advancesCursor ha hw (Option.some.inj hresp)
    exact ⟨hadvance.trans_le hfit, hadvance⟩
  · obtain ⟨t, hserve, hblock, _⟩ := runIsTheBlockMachineRun (cmds.map fun c => .command (encode c.1) c.2) s
    cases hrun.symm.trans hserve
    rw [hblock]
    exact blockRun_cur_eq_add_sum cmds s.block hcmds hok

end Sys2Proof.Machine
end

section
/-! Proofs of the session statements (45_bitfield_encoder_fsm.md R134, R135): packing a list of fields, reading it back,
and restoring a handle and a cursor. -/

namespace Sys2Proof.Machine

/-! ## Words that hold numbers -/

section Numbers

variable {w p n : Nat} {v b : Word w}

/-- A word whose bits all lie below `p` does not meet a mask moved to `p`. -/
theorem and_shlW_eq_zero_of_lt (hv : v.toNat < 2 ^ p) (m : Word w) : v &&& shlW m p = 0 := by
  apply BitVec.eq_of_getLsbD_eq
  intro i _
  rw [BitVec.getLsbD_and, getLsbD_shlW]
  by_cases hi : p ≤ i
  · have hbit : v.getLsbD i = false :=
      Nat.testBit_lt_two_pow (hv.trans_le (Nat.pow_le_pow_right (by decide) hi))
    rw [hbit, Bool.false_and]
    exact BitVec.getLsbD_zero.symm
  · simp [hi]

/-- Appending an `n`-bit number above a `p`-bit number is addition at weight `2^p` (R134). -/
theorem toNat_insertField_maskW (hn : p + n ≤ w) (hv : v.toNat < 2 ^ p) (hb : b.toNat < 2 ^ n) :
    (insertField v b (maskW w n) p).toNat = v.toNat + 2 ^ p * b.toNat := by
  have hkept : b &&& maskW w n = b := and_maskW_of_toNat_le (by omega) (Nat.le_sub_one_of_lt hb)
  have hword : 2 ^ p * b.toNat < 2 ^ w := calc
    2 ^ p * b.toNat < 2 ^ p * 2 ^ n := Nat.mul_lt_mul_of_pos_left hb (Nat.two_pow_pos p)
    _ = 2 ^ (p + n) := (Nat.pow_add 2 p n).symm
    _ ≤ 2 ^ w := Nat.pow_le_pow_right (by decide) hn
  rw [← orField_eq_insertField b (and_shlW_eq_zero_of_lt hv _), orField, fieldBits, hkept, BitVec.toNat_or, shlW,
    BitVec.toNat_ofNat, Nat.mul_comm b.toNat, Nat.mod_eq_of_lt hword, Nat.or_comm, ← Nat.two_pow_add_eq_or_of_lt hv,
    Nat.add_comm]

/-- Extraction under a contiguous mask is division and remainder. -/
theorem toNat_extractField_maskW (hn : n ≤ w) (v : Word w) (p : Nat) :
    (extractField v (maskW w n) p).toNat = v.toNat / 2 ^ p % 2 ^ n := by
  rw [toNat_extractField, toNat_maskW hn, Nat.and_two_pow_sub_one_eq_mod]

variable {ws : Width}

/-- A 64-bit word holds every number of `W` bits. -/
theorem toNat_ofNat_of_lt {h : Nat} (hh : h < 2 ^ ws.bits) : (BitVec.ofNat 64 h).toNat = h := by
  rw [BitVec.toNat_ofNat, Nat.mod_eq_of_lt (hh.trans_le (Nat.pow_le_pow_right (by decide) (bits_le ws)))]

theorem zext64_eq_ofNat (v : Word ws.bits) : zext64 v = BitVec.ofNat 64 v.toNat := by
  apply BitVec.eq_of_toNat_eq
  rw [toNat_zext64, toNat_ofNat_of_lt v.isLt]

theorem toNat_truncPort_of_lt {v : Port} (hv : v.toNat < 2 ^ ws.bits) : (truncPort ws v).toNat = v.toNat := by
  rw [toNat_truncPort, Nat.mod_eq_of_lt hv]

theorem zext64_truncPort_of_lt {v : Port} (hv : v.toNat < 2 ^ ws.bits) : zext64 (truncPort ws v) = v := by
  apply BitVec.eq_of_toNat_eq
  rw [toNat_zext64, toNat_truncPort_of_lt hv]

/-- A handle with no bit from `W` up is its low part. -/
theorem handleWithLow_of_lt {b : Block} (h : b.h.toNat < 2 ^ ws.bits) (v : Word ws.bits) :
    handleWithLow ws b v = zext64 v := by
  have htop : b.h >>> ws.bits = 0 := by
    apply BitVec.eq_of_toNat_eq
    rw [BitVec.toNat_ushiftRight, Nat.shiftRight_eq_div_pow, Nat.div_eq_of_lt h]
    rfl
  rw [handleWithLow, htop]
  simp

end Numbers

/-! ## The block inside a session -/

/-- An unlocked block with a handle and a cursor given as numbers. -/
def sessionBlock (h cur : Nat) : Block := { h := BitVec.ofNat 64 h, cur := BitVec.ofNat 7 cur, flt := 0 }

section SessionBlock

variable {ws : Width} {h cur : Nat}

@[simp] theorem sessionBlock_flt : (sessionBlock h cur).flt = 0 := rfl

theorem cursor_sessionBlock (hcur : cur ≤ ws.bits) : cursor (sessionBlock h cur) = cur := toNat_ofNat_seven hcur

theorem toNat_handleLow_sessionBlock (hh : h < 2 ^ ws.bits) : (handleLow ws (sessionBlock h cur)).toNat = h := by
  rw [handleLow, sessionBlock, toNat_truncPort, toNat_ofNat_of_lt hh, Nat.mod_eq_of_lt hh]

/-- On an unlocked block HINIT starts an empty session. -/
theorem blockStep_hinit {b : Block} (hflt : b.flt = 0) (ops : Operands) :
    blockStep (.command (encode .hinit) ops) b = (some (.ok 0 0), sessionBlock 0 0) := by
  have hreply : replyTo .hinit ops b = complete (encoderAnswer 0 0 0 0) b :=
    perform_of_complete b _ _ hflt firstFault_nil
  rw [blockStep_encode rfl, hreply, complete, hflt]
  rfl

/-- On an unlocked block HSEED starts a session on the low `W` bits of `A`. -/
theorem blockStep_hseed {b : Block} (hws : encoderWidth ws = true) (hflt : b.flt = 0) (ops : Operands) :
    blockStep (.command (encode (.hseed ws)) ops) b = (some (.ok 0 0), sessionBlock (opA ws ops).toNat 0) := by
  have hreply : replyTo (.hseed ws) ops b = complete (encoderAnswer 0 0 (zext64 (opA ws ops)) 0) b :=
    perform_of_complete b _ _ hflt firstFault_nil
  rw [blockStep_encode (i := .hseed ws) hws, hreply, complete, hflt, sessionBlock, ← zext64_eq_ofNat]
  rfl

/-- HGET returns the handle and the cursor and leaves both. -/
theorem blockStep_hget (hws : encoderWidth ws = true) (hh : h < 2 ^ ws.bits) (hcur : cur ≤ ws.bits) (ops : Operands) :
    blockStep (.command (encode (.hget ws)) ops) (sessionBlock h cur) =
      (some (.ok (BitVec.ofNat 64 h) (BitVec.ofNat 8 cur)), sessionBlock h cur) := by
  have hreply : replyTo (.hget ws) ops (sessionBlock h cur) =
      complete (pureAnswer (sessionBlock h cur) (zext64 (handleLow ws (sessionBlock h cur)))
        (cursor (sessionBlock h cur))) (sessionBlock h cur) :=
    perform_of_complete _ _ _ sessionBlock_flt firstFault_nil
  rw [blockStep_encode (i := .hget ws) hws, hreply, zext64_eq_ofNat, toNat_handleLow_sessionBlock hh,
    cursor_sessionBlock hcur]
  rfl

theorem firstFault_encoderTests_maskW {n : Nat} (hpos : 1 ≤ n) (hn : cur + n ≤ ws.bits) :
    firstFault (encoderTests ws cur (maskW ws.bits n)) = none := by
  have hle : n ≤ ws.bits := by omega
  exact firstFault_encoderTests (maskW_ne_zero hpos hle) (by rwa [popcount_maskW hle])

/-- A command of a contiguous field of `n` bits at the cursor completes with its result and its handle, and the cursor
stands after the field (R121). -/
theorem replyTo_of_encoderTests_maskW {i : Instr} {ops : Operands} {n : Nat} {r h' : Port} (hpos : 1 ≤ n)
    (hn : cur + n ≤ ws.bits) (hmask : opM ws ops = maskW ws.bits n)
    (hreply : replyTo i ops (sessionBlock h cur) =
      perform (sessionBlock h cur) (encoderTests ws (cursor (sessionBlock h cur)) (opM ws ops))
        (encoderAnswer r (advancedCursor ws ops (sessionBlock h cur)) h'
          (advancedCursor ws ops (sessionBlock h cur)))) :
    replyTo i ops (sessionBlock h cur) =
      { response := .ok r (BitVec.ofNat 8 (cur + n))
        block := { h := h', cur := BitVec.ofNat 7 (cur + n), flt := 0 } } := by
  have hcur : cursor (sessionBlock h cur) = cur := cursor_sessionBlock (ws := ws) (by omega)
  have hadvance : advancedCursor ws ops (sessionBlock h cur) = cur + n := by
    rw [advancedCursor, hcur, hmask, popcount_maskW (by omega)]
  rw [hreply, hadvance, hcur, hmask,
    perform_of_complete _ _ _ sessionBlock_flt (firstFault_encoderTests_maskW hpos hn)]
  rfl

end SessionBlock

/-! ## One field -/

/-- The word of width `W` that a field stores (R125, R126). -/
def Field.storedWord (ws : Width) (f : Field) : Word ws.bits :=
  if f.noneable then noneableCode (truncPort ws f.value) else truncPort ws f.value

/-- The value that a stored word stands for (R127, R128). -/
def Field.valueOf {ws : Width} (f : Field) (e : Word ws.bits) : Word ws.bits :=
  if f.noneable then noneableValue e else e

/-- The packing command of the field's kind. -/
def Field.packInstr (ws : Width) (f : Field) : Instr := if f.noneable then .hencn ws else .henc ws

/-- The reading command of the field's kind. -/
def Field.unpackInstr (ws : Width) (f : Field) : Instr := if f.noneable then .hdecn ws else .hdec ws

/-- The operands of a command of the field, with a value to insert. -/
def Field.operands (f : Field) (value : Port) : Operands :=
  { a := 0, b := value, c := BitVec.ofNat 64 (2 ^ f.bits - 1) }

section OneField

variable {ws : Width} {f : Field}

theorem toNat_storedWord (hf : f.fits ws) : (f.storedWord ws).toNat = f.code ws := by
  obtain ⟨_, hvalue, _⟩ := hf
  rw [Field.storedWord, Field.code]
  split
  · exact toNat_noneableCode_truncPort f.value
  · exact toNat_truncPort_of_lt hvalue

theorem zext64_valueOf_storedWord (hf : f.fits ws) : zext64 (f.valueOf (f.storedWord ws)) = f.value := by
  obtain ⟨_, hvalue, _⟩ := hf
  have hround : f.valueOf (f.storedWord ws) = truncPort ws f.value := by
    rw [Field.valueOf, Field.storedWord]
    split
    · exact noneableValue_noneableCode _
    · rfl
  rw [hround, zext64_truncPort_of_lt hvalue]

/-- Both packing commands insert the stored word (R125, R126). -/
theorem replyTo_packInstr (f : Field) (b : Block) :
    replyTo (f.packInstr ws) (f.operands f.value) b =
      perform b (encoderTests ws (cursor b) (opM ws (f.operands f.value)))
        (encoderAnswer 0 (advancedCursor ws (f.operands f.value) b)
          (handleWithLow ws b (insertField (handleLow ws b) (f.storedWord ws) (opM ws (f.operands f.value)) (cursor b)))
          (advancedCursor ws (f.operands f.value) b)) := by
  rw [Field.packInstr, Field.storedWord]
  cases f.noneable with
  | true => rfl
  | false => rfl

/-- Both reading commands return the value of the extracted word (R127, R128). -/
theorem replyTo_unpackInstr (f : Field) (b : Block) :
    replyTo (f.unpackInstr ws) (f.operands 0) b =
      perform b (encoderTests ws (cursor b) (opM ws (f.operands 0)))
        (encoderAnswer (zext64 (f.valueOf (extractField (handleLow ws b) (opM ws (f.operands 0)) (cursor b))))
          (advancedCursor ws (f.operands 0) b) b.h (advancedCursor ws (f.operands 0) b)) := by
  rw [Field.unpackInstr, Field.valueOf]
  cases f.noneable with
  | true => rfl
  | false => rfl

theorem opM_operands (f : Field) (value : Port) : opM ws (f.operands value) = maskW ws.bits f.bits :=
  truncPort_ofNat_mask ws f.bits

theorem packInstr_wellFormed (hws : encoderWidth ws = true) (f : Field) : (f.packInstr ws).wellFormed = true := by
  unfold Field.packInstr
  split <;> exact hws

theorem unpackInstr_wellFormed (hws : encoderWidth ws = true) (f : Field) :
    (f.unpackInstr ws).wellFormed = true := by
  unfold Field.unpackInstr
  split <;> exact hws

theorem blockStep_encodeInput_eq (hws : encoderWidth ws = true) (f : Field) (b : Block) :
    blockStep (f.encodeInput ws) b = (some (replyTo (f.packInstr ws) (f.operands f.value) b).response,
      (replyTo (f.packInstr ws) (f.operands f.value) b).block) :=
  blockStep_encode (packInstr_wellFormed hws f) _ b

theorem blockStep_decodeInput_eq (hws : encoderWidth ws = true) (f : Field) (b : Block) :
    blockStep (f.decodeInput ws) b = (some (replyTo (f.unpackInstr ws) (f.operands 0) b).response,
      (replyTo (f.unpackInstr ws) (f.operands 0) b).block) :=
  blockStep_encode (unpackInstr_wellFormed hws f) _ b

variable {h cur : Nat}

/-- HENC and HENCN complete with the field's code appended to the handle. -/
theorem blockStep_encodeInput (hws : encoderWidth ws = true) (hf : f.fits ws) (hh : h < 2 ^ cur)
    (hfit : cur + f.bits ≤ ws.bits) :
    blockStep (f.encodeInput ws) (sessionBlock h cur) =
      (some (.ok 0 (BitVec.ofNat 8 (cur + f.bits))), sessionBlock (h + 2 ^ cur * f.code ws) (cur + f.bits)) := by
  have ⟨hpos, _, hcode⟩ := hf
  have hword : h < 2 ^ ws.bits := hh.trans_le (Nat.pow_le_pow_right (by decide) (by omega))
  have hport : (sessionBlock h cur).h.toNat < 2 ^ ws.bits := by rwa [sessionBlock, toNat_ofNat_of_lt hword]
  have hlow : (handleLow ws (sessionBlock h cur)).toNat = h := toNat_handleLow_sessionBlock hword
  have hstored : (f.storedWord ws).toNat = f.code ws := toNat_storedWord hf
  rw [blockStep_encodeInput_eq hws, replyTo_of_encoderTests_maskW hpos hfit (opM_operands f _) (replyTo_packInstr f _),
    opM_operands, cursor_sessionBlock (ws := ws) (by omega), handleWithLow_of_lt hport, zext64_eq_ofNat,
    toNat_insertField_maskW hfit (by rwa [hlow]) (by rwa [hstored]), hlow, hstored]
  rfl

/-- HDEC and HDECN complete with the field's value, where its code stands at the cursor. -/
theorem blockStep_decodeInput (hws : encoderWidth ws = true) (hf : f.fits ws) (hh : h < 2 ^ ws.bits)
    (hcode : h / 2 ^ cur % 2 ^ f.bits = f.code ws) (hfit : cur + f.bits ≤ ws.bits) :
    blockStep (f.decodeInput ws) (sessionBlock h cur) =
      (some (.ok f.value (BitVec.ofNat 8 (cur + f.bits))), sessionBlock h (cur + f.bits)) := by
  have ⟨hpos, _, _⟩ := hf
  have hread : extractField (handleLow ws (sessionBlock h cur)) (maskW ws.bits f.bits) cur = f.storedWord ws := by
    apply BitVec.eq_of_toNat_eq
    rw [toNat_extractField_maskW (by omega), toNat_handleLow_sessionBlock hh, hcode, toNat_storedWord hf]
  rw [blockStep_decodeInput_eq hws, replyTo_of_encoderTests_maskW hpos hfit (opM_operands f _)
    (replyTo_unpackInstr f _), opM_operands, cursor_sessionBlock (ws := ws) (by omega), hread,
    zext64_valueOf_storedWord hf]
  rfl

end OneField

/-! ## Lists of fields -/

/-- A run of two lists is a run of the second from where the first ends. -/
theorem blockRun_append (xs ys : List HostInput) (b : Block) :
    blockRun (xs ++ ys) b =
      ((blockRun xs b).1 ++ (blockRun ys (blockRun xs b).2).1, (blockRun ys (blockRun xs b).2).2) := by
  induction xs generalizing b with
  | nil => rfl
  | cons x xs ih => rw [List.cons_append, blockRun, ih, blockRun, List.append_assoc]

section Fields

variable {ws : Width} {f : Field} {fs : List Field}

theorem totalBits_cons (f : Field) (fs : List Field) : totalBits (f :: fs) = f.bits + totalBits fs := by
  rw [totalBits, List.map_cons, List.sum_cons, totalBits]

theorem packedWord_cons (f : Field) (fs : List Field) :
    packedWord ws (f :: fs) = f.code ws + 2 ^ f.bits * packedWord ws fs := rfl

/-- A number of `n + k` bits put together from `n` low bits and `k` bits above them. -/
theorem add_two_pow_mul_lt {x y n k : Nat} (hx : x < 2 ^ n) (hy : y < 2 ^ k) : x + 2 ^ n * y < 2 ^ (n + k) := by
  calc x + 2 ^ n * y < 2 ^ n + 2 ^ n * y := Nat.add_lt_add_right hx _
    _ = 2 ^ n * (y + 1) := by rw [Nat.mul_succ, Nat.add_comm]
    _ ≤ 2 ^ n * 2 ^ k := Nat.mul_le_mul_left _ hy
    _ = 2 ^ (n + k) := (Nat.pow_add 2 n k).symm

theorem packedWord_lt (hfits : ∀ f ∈ fs, f.fits ws) : packedWord ws fs < 2 ^ totalBits fs := by
  induction fs with
  | nil => exact Nat.one_pos
  | cons f fs ih =>
    obtain ⟨⟨_, _, hcode⟩, hrest⟩ := List.forall_mem_cons.mp hfits
    rw [packedWord_cons, totalBits_cons]
    exact add_two_pow_mul_lt hcode (ih hrest)

/-- Packing appends the packed word above what the handle holds, without a fault. -/
theorem blockRun_encodeInput {h cur : Nat} (hws : encoderWidth ws = true) (hfits : ∀ f ∈ fs, f.fits ws)
    (hh : h < 2 ^ cur) (hfit : cur + totalBits fs ≤ ws.bits) :
    (∀ x ∈ (blockRun (fs.map (Field.encodeInput ws)) (sessionBlock h cur)).1, statusOf x = 0) ∧
    (blockRun (fs.map (Field.encodeInput ws)) (sessionBlock h cur)).2 =
      sessionBlock (h + 2 ^ cur * packedWord ws fs) (cur + totalBits fs) := by
  induction fs generalizing h cur with
  | nil => exact ⟨nofun, rfl⟩
  | cons f fs ih =>
    obtain ⟨hf, hrest⟩ := List.forall_mem_cons.mp hfits
    have ⟨_, _, hcode⟩ := hf
    rw [totalBits_cons, ← Nat.add_assoc] at hfit
    have hhandle : h + 2 ^ cur * f.code ws + 2 ^ (cur + f.bits) * packedWord ws fs =
        h + 2 ^ cur * packedWord ws (f :: fs) := by
      rw [packedWord_cons, Nat.pow_add, Nat.mul_add, Nat.mul_assoc, Nat.add_assoc]
    obtain ⟨hok, hblock⟩ := ih hrest (add_two_pow_mul_lt hh hcode) hfit
    rw [List.map_cons, blockRun_cons (blockStep_encodeInput hws hf hh (by omega)), hblock, hhandle, totalBits_cons,
      Nat.add_assoc]
    exact ⟨List.forall_mem_cons.mpr ⟨rfl, hok⟩, rfl⟩

/-- Reading the fields at the cursor returns their values in order. -/
theorem blockRun_decodeInput {h cur : Nat} (hws : encoderWidth ws = true) (hfits : ∀ f ∈ fs, f.fits ws)
    (hh : h < 2 ^ ws.bits) (hpacked : h / 2 ^ cur = packedWord ws fs) (hfit : cur + totalBits fs ≤ ws.bits) :
    (blockRun (fs.map (Field.decodeInput ws)) (sessionBlock h cur)).1.map resultOfResponse =
      fs.map fun f => some f.value := by
  induction fs generalizing cur with
  | nil => rfl
  | cons f fs ih =>
    obtain ⟨hf, hrest⟩ := List.forall_mem_cons.mp hfits
    have ⟨_, _, hcode⟩ := hf
    rw [totalBits_cons, ← Nat.add_assoc] at hfit
    have hfirst : h / 2 ^ cur % 2 ^ f.bits = f.code ws := by
      rw [hpacked, packedWord_cons, Nat.add_mul_mod_self_left, Nat.mod_eq_of_lt hcode]
    have hlater : h / 2 ^ (cur + f.bits) = packedWord ws fs := by
      rw [Nat.pow_add, ← Nat.div_div_eq_div_mul, hpacked, packedWord_cons,
        Nat.add_mul_div_left _ _ (Nat.two_pow_pos _), Nat.div_eq_of_lt hcode, Nat.zero_add]
    rw [List.map_cons, blockRun_cons (blockStep_decodeInput hws hf hh hfirst (by omega)), List.map_cons,
      ih hrest hlater hfit]
    rfl

end Fields

/-! ## Sessions -/

/-- HINIT, the fields and HGET, on an unlocked block: only OK responses, the packed word and its width at the end. -/
theorem blockRun_pack {ws : Width} {fs : List Field} {b : Block} (hws : encoderWidth ws = true) (hflt : b.flt = 0)
    (hfits : ∀ f ∈ fs, f.fits ws) (hfit : totalBits fs ≤ ws.bits) :
    ∃ rs, (∀ x ∈ rs, statusOf x = 0) ∧
      blockRun ([.command (encode .hinit) ⟨0, 0, 0⟩] ++ fs.map (Field.encodeInput ws) ++
        [.command (encode (.hget ws)) ⟨0, 0, 0⟩]) b =
      (rs ++ [.ok (BitVec.ofNat 64 (packedWord ws fs)) (BitVec.ofNat 8 (totalBits fs))],
        sessionBlock (packedWord ws fs) (totalBits fs)) := by
  have hword : packedWord ws fs < 2 ^ ws.bits :=
    (packedWord_lt hfits).trans_le (Nat.pow_le_pow_right (by decide) hfit)
  obtain ⟨hok, hblock⟩ := blockRun_encodeInput (h := 0) (cur := 0) hws hfits (by decide) (by omega)
  rw [Nat.pow_zero, Nat.one_mul, Nat.zero_add, Nat.zero_add] at hblock
  refine ⟨.ok 0 0 :: _, List.forall_mem_cons.mpr ⟨rfl, hok⟩, ?_⟩
  rw [List.append_assoc, List.singleton_append, blockRun_cons (blockStep_hinit hflt _), blockRun_append, hblock,
    blockRun_cons (blockStep_hget hws hword hfit _)]
  rfl

/-- HENC changes no bit below the cursor, completed or not (R135). -/
theorem getLsbD_replyTo_henc_of_lt_cursor (ws : Width) (ops : Operands) {b : Block} {i : Nat} (hi : i < cursor b) :
    (replyTo (.henc ws) ops b).block.h.getLsbD i = b.h.getLsbD i := by
  have hreply : replyTo (.henc ws) ops b = perform b (encoderTests ws (cursor b) (opM ws ops))
      (encoderAnswer 0 (advancedCursor ws ops b)
        (handleWithLow ws b (insertField (handleLow ws b) (truncPort ws ops.b) (truncPort ws ops.c) (cursor b)))
        (advancedCursor ws ops b)) := rfl
  rw [hreply]
  rcases perform_cases b _ _ with ⟨_, e⟩ | ⟨_, cause, _, e⟩ | ⟨_, _, e⟩
  · rw [e, answerLocked_block]
  · rw [e, raiseFault_h]
  · rw [e, complete_h, encoderAnswer_h, getLsbD_handleWithLow_insertField, if_neg fun h => h.1.not_gt hi]

/-- HSKIP is the reading command of a plain field of `k` bits: it returns the low `k` bits of the seed and leaves the
cursor at `k`. -/
theorem blockStep_pseudoHskip {ws : Width} {h k : Nat} (hws : encoderWidth ws = true) (hh : h < 2 ^ ws.bits)
    (hpos : 1 ≤ k) (hk : k ≤ ws.bits) :
    blockStep (pseudoHskip ws k) (sessionBlock h 0) =
      (some (.ok (BitVec.ofNat 64 (h % 2 ^ k)) (BitVec.ofNat 8 k)), sessionBlock h k) := by
  have hlt : h % 2 ^ k < 2 ^ k := Nat.mod_lt _ (Nat.two_pow_pos k)
  have hword : h % 2 ^ k < 2 ^ ws.bits := hlt.trans_le (Nat.pow_le_pow_right (by decide) hk)
  have hvalue : (BitVec.ofNat 64 (h % 2 ^ k)).toNat = h % 2 ^ k := toNat_ofNat_of_lt hword
  have hfits : Field.fits ws ⟨k, BitVec.ofNat 64 (h % 2 ^ k), false⟩ :=
    ⟨hpos, hvalue.trans_lt hword, hvalue.trans_lt hlt⟩
  have hcode : h / 2 ^ 0 % 2 ^ k = (BitVec.ofNat 64 (h % 2 ^ k)).toNat := by rw [hvalue, Nat.pow_zero, Nat.div_one]
  have hstep := blockStep_decodeInput hws hfits hh hcode (by rwa [Nat.zero_add])
  rwa [Nat.zero_add] at hstep

/-! ## The obligations -/

/-- Settles O54: packing leaves an unlocked block, which is then seeded with the packed word and read in order. -/
theorem sequentialRoundTrip : Obligations.SequentialRoundTrip := by
  intro ws fs s hws hflt hfits hfit
  have hword : packedWord ws fs < 2 ^ ws.bits :=
    (packedWord_lt hfits).trans_le (Nat.pow_le_pow_right (by decide) hfit)
  obtain ⟨rs, hok, hpack⟩ := blockRun_pack hws hflt hfits hfit
  obtain ⟨t, hserve, hblock, _⟩ := runIsTheBlockMachineRun ([.command (encode .hinit) ⟨0, 0, 0⟩] ++
    fs.map (Field.encodeInput ws) ++ [.command (encode (.hget ws)) ⟨0, 0, 0⟩]) s
  rw [hpack] at hserve hblock
  obtain ⟨u, hunpack, _, _⟩ := runIsTheBlockMachineRun
    ([.command (encode (.hseed ws)) ⟨BitVec.ofNat 64 (packedWord ws fs), 0, 0⟩] ++ fs.map (Field.decodeInput ws)) t
  have hseed : (opA ws ⟨BitVec.ofNat 64 (packedWord ws fs), 0, 0⟩).toNat = packedWord ws fs := by
    rw [opA, toNat_truncPort, toNat_ofNat_of_lt hword, Nat.mod_eq_of_lt hword]
  rw [List.singleton_append, blockRun_cons (blockStep_hseed hws (by rw [hblock]; rfl) _), hseed] at hunpack
  refine ⟨_, _, t, u, hserve, ?_, List.getLast?_concat, hunpack, ?_⟩
  · exact List.forall_mem_append.mpr ⟨hok, List.forall_mem_singleton.mpr rfl⟩
  · exact blockRun_decodeInput hws hfits hword (by rw [Nat.pow_zero, Nat.div_one]) (by omega)

/-- Settles O55: the two steps of the block machine, and what HENC leaves below the cursor. -/
theorem seedAndSkipRestoreHandleAndCursor : Obligations.SeedAndSkipRestoreHandleAndCursor := by
  intro ws a k s hws hflt hpos hk
  have hseed : (opA ws ⟨a, 0, 0⟩).toNat = a.toNat % 2 ^ ws.bits := toNat_truncPort ws a
  have hlt : a.toNat % 2 ^ ws.bits < 2 ^ ws.bits := Nat.mod_lt _ (Nat.two_pow_pos _)
  have hrun : blockRun [.command (encode (.hseed ws)) ⟨a, 0, 0⟩, pseudoHskip ws k] s.block =
      ([.ok 0 0, .ok (BitVec.ofNat 64 (a.toNat % 2 ^ k)) (BitVec.ofNat 8 k)],
        sessionBlock (a.toNat % 2 ^ ws.bits) k) := by
    rw [blockRun_cons (blockStep_hseed hws hflt _), hseed, blockRun_cons (blockStep_pseudoHskip hws hlt hpos hk),
      Nat.mod_mod_of_dvd _ (Nat.pow_dvd_pow 2 hk)]
    rfl
  obtain ⟨t, hserve, hblock, _⟩ := runIsTheBlockMachineRun
    [.command (encode (.hseed ws)) ⟨a, 0, 0⟩, pseudoHskip ws k] s
  rw [hrun] at hserve hblock
  refine ⟨t, hserve, hblock, fun ops r r2 u hu _ i hi => ?_⟩
  obtain rfl := (exec_next_iff _ _ _).mp hu
  have hcursor : cursor t.block = k := by rw [hblock]; exact cursor_sessionBlock hk
  have hhandle : t.block.h = lowBits ws a := by rw [hblock]; rfl
  have hword : i < ws.bits := by omega
  calc (replyTo (.henc ws) ops t.block).block.h.getLsbD i
      = t.block.h.getLsbD i := getLsbD_replyTo_henc_of_lt_cursor ws ops (by rwa [hcursor])
    _ = a.getLsbD i := by
      rw [hhandle, lowBits_eq, getLsbD_zext64, getLsbD_truncPort, decide_eq_true hword, Bool.true_and]

end Sys2Proof.Machine
end

section
/-! Proofs of the auxiliary word operation statements (46_aux_word_ops.md): BITREV, BITSWAP, SEXT (R141, R142, R144) and
their laws (R145). -/

namespace Sys2Proof.Machine

/-! ## The words of the auxiliary commands -/

section MirroredWords

variable {w : Nat} (v : Word w) {p : Nat}

/-- Mirroring twice takes bit `i` to `W - 1 - i` and back. -/
theorem bitReverse_bitReverse : bitReverse (bitReverse v) = v := by
  apply BitVec.eq_of_getLsbD_eq
  intro i hi
  have hmirror : w - 1 - i < w := by omega
  have hback : w - 1 - (w - 1 - i) = i := by omega
  rw [getLsbD_bitReverse, getLsbD_bitReverse, decide_eq_true hi, decide_eq_true hmirror, Bool.true_and, Bool.true_and,
    hback]

/-- Mirroring the low bits twice takes bit `i` with `i ≤ p` to `p - i` and back, and never moves a bit above `p`. -/
theorem bitSwap_bitSwap (hp : p < w) : bitSwap (bitSwap v p) p = v := by
  apply BitVec.eq_of_getLsbD_eq
  intro i hi
  rw [getLsbD_bitSwap, getLsbD_bitSwap, getLsbD_bitSwap, decide_eq_true hi, Bool.true_and, Bool.true_and]
  by_cases hip : i ≤ p
  · have hmirror : p - i < w := by omega
    rw [if_pos hip, decide_eq_true hmirror, Bool.true_and, if_pos (Nat.sub_le p i), Nat.sub_sub_self hip]
  · rw [if_neg hip, if_neg hip]

/-- The mirror of all bits is the mirror of the low `W` bits. -/
theorem bitSwap_pred_width : bitSwap v (w - 1) = bitReverse v := by
  apply BitVec.eq_of_getLsbD_eq
  intro i hi
  rw [getLsbD_bitSwap, getLsbD_bitReverse, if_pos (Nat.le_sub_one_of_lt hi)]

end MirroredWords

section ExtendedWords

variable {w : Nat} (v : Word w) {p : Nat}

/-- The model's extension of the low `p` bits is the library's extension of the word cut to `p` bits. -/
theorem signExtend_eq_signExtend_setWidth (hpos : 1 ≤ p) (hp : p ≤ w) :
    signExtend v p = (v.setWidth p).signExtend w := by
  apply BitVec.eq_of_getLsbD_eq
  intro i hi
  have htop : p - 1 < p := by omega
  rw [getLsbD_signExtend v p i hpos hp, BitVec.getLsbD_signExtend, BitVec.msb_eq_getLsbD_last,
    BitVec.getLsbD_setWidth, BitVec.getLsbD_setWidth, decide_eq_true htop, Bool.true_and]
  by_cases hip : i < p
  · rw [if_pos hip, if_pos hip, decide_eq_true hip, Bool.true_and]
  · rw [if_neg hip, if_neg hip]

/-- The extension keeps the field. -/
theorem setWidth_signExtend (hpos : 1 ≤ p) (hp : p ≤ w) : (signExtend v p).setWidth p = v.setWidth p := by
  apply BitVec.eq_of_getLsbD_eq
  intro i hi
  have hword : i < w := by omega
  rw [BitVec.getLsbD_setWidth, BitVec.getLsbD_setWidth, getLsbD_signExtend v p i hpos hp, decide_eq_true hword,
    Bool.true_and, if_pos hi]

/-- The extension depends on the field only, which it keeps. -/
theorem signExtend_signExtend (hpos : 1 ≤ p) (hp : p ≤ w) : signExtend (signExtend v p) p = signExtend v p := by
  rw [signExtend_eq_signExtend_setWidth _ hpos hp, setWidth_signExtend v hpos hp,
    signExtend_eq_signExtend_setWidth v hpos hp]

/-- The extension keeps the field, said with its mask. -/
theorem signExtend_and_maskW (hpos : 1 ≤ p) (hp : p ≤ w) : signExtend v p &&& maskW w p = v &&& maskW w p := by
  apply BitVec.eq_of_getLsbD_eq
  intro i hi
  rw [BitVec.getLsbD_and, BitVec.getLsbD_and, getLsbD_signExtend v p i hpos hp, getLsbD_maskW, decide_eq_true hi,
    Bool.true_and]
  by_cases hip : i < p
  · rw [if_pos hip]
  · have hmask : ¬ (i < p ∧ i < w) := fun h => hip h.1
    rw [decide_eq_false hmask, Bool.and_false, Bool.and_false]

/-- The extension is the signed number of the field (R144). -/
theorem toInt_signExtend (hpos : 1 ≤ p) (hp : p ≤ w) :
    (signExtend v p).toInt = if 2 ^ (p - 1) ≤ v.toNat % 2 ^ p
      then (v.toNat % 2 ^ p : Int) - 2 ^ p else (v.toNat % 2 ^ p : Int) := by
  rw [signExtend_eq_signExtend_setWidth v hpos hp, BitVec.toInt_signExtend_of_le hp, BitVec.toInt_eq_msb_cond,
    BitVec.msb_eq_decide, BitVec.toNat_setWidth]
  simp only [decide_eq_true_eq]
  push_cast
  rfl

end ExtendedWords

section PortWords

variable {ws : Width}

theorem truncPort_ofNat (n : Nat) : truncPort ws (BitVec.ofNat 64 n) = BitVec.ofNat ws.bits n :=
  BitVec.setWidth_ofNat_of_le (bits_le ws) n

theorem zext64_ofNat_two_pow {k : Nat} (hk : k < ws.bits) :
    zext64 (BitVec.ofNat ws.bits (2 ^ k)) = BitVec.ofNat 64 (2 ^ k) := by
  apply BitVec.eq_of_getLsbD_eq
  intro i _
  rw [getLsbD_zext64, getLsbD_ofNat_two_pow hk, getLsbD_ofNat_two_pow (hk.trans_le (bits_le ws))]

end PortWords

/-! ## The commands -/

/-- On an unlocked block BITREV has no test to fail (R141). -/
theorem exec_bitrev {s : State} (ws : Width) (hflt : s.block.flt = 0) :
    exec (.bitrev ws) s =
      .next { s with response := some (.ok (zext64 (bitReverse (truncPort ws s.operands.a))) 0) } :=
  exec_of_completes hflt firstFault_nil rfl

section CountTests

/-- The tests of SEXT in the order of R144. -/
def sextTests (ws : Width) (p : Nat) : List (Bool × FaultCause) :=
  [(decide (p = 0), .badCount), (decide (ws.bits < p), .badCount)]

variable {ws : Width} {p : Nat}

theorem replyTo_sext (ops : Operands) (b : Block) : replyTo (.sext ws p) ops b = perform b (sextTests ws p)
    (pureAnswer b (zext64 (signExtend (opA ws ops) p)) 0) := rfl

theorem firstFault_sextTests (hpos : 1 ≤ p) (hp : p ≤ ws.bits) : firstFault (sextTests ws p) = none := by
  rw [sextTests, firstFault_cons_of_not _ _ (Nat.ne_of_gt hpos), firstFault_singleton_of_not _ hp.not_gt]

theorem firstFault_sextTests_of_count (h : p = 0 ∨ ws.bits < p) : firstFault (sextTests ws p) = some .badCount := by
  by_cases hp : p = 0
  · exact firstFault_cons_of_failed _ _ hp
  · rw [sextTests, firstFault_cons_of_not _ _ hp, firstFault_singleton _ (h.resolve_left hp)]

theorem pureR_sext (a b c : Port) (hpos : 1 ≤ p) (hp : p ≤ ws.bits) :
    pureR (.sext ws p) a b c = some (zext64 (signExtend (truncPort ws a) p)) :=
  pureR_of_completes (firstFault_sextTests hpos hp) (replyTo_sext ..)

end CountTests

/-! ## The obligations -/

/-- Settles O45: the result is the mirrored word, and mirroring it again gives the word back. -/
theorem bitrevMirrorsTheWord : Obligations.BitrevMirrorsTheWord := by
  refine ⟨fun ws => decode_formatN_word (by decide) ws rfl, fun ws s hflt =>
    ⟨_, exec_bitrev ws hflt, fun i => ?_, fun b c => ?_⟩⟩
  · rw [getLsbD_zext64, getLsbD_bitReverse, getLsbD_truncPort]
    by_cases hi : i < ws.bits
    · have hmirror : ws.bits - 1 - i < ws.bits := by omega
      rw [decide_eq_true hmirror, Bool.true_and]
    · rw [decide_eq_false hi, Bool.false_and, Bool.false_and]
  · have hback : lowBits ws s.operands.a =
        zext64 (bitReverse (truncPort ws (zext64 (bitReverse (truncPort ws s.operands.a))))) := by
      rw [truncPort_zext64, bitReverse_bitReverse, lowBits_eq]
    rw [hback]
    exact exec_bitrev ws hflt

/-- Settles O46: an indexed command whose result is the word with its low bits mirrored; the mirrored bits have their
sources below `W`. -/
theorem bitswapMirrorsTheLowBitsOnly : Obligations.BitswapMirrorsTheLowBitsOnly := by
  refine ⟨fun ws p hp => decode_formatP_word (by decide) hp ws rfl, fun ws p s hflt =>
    exec_of_indexTests hflt rfl fun hp i => ?_⟩
  have hmirror : p - i < ws.bits := by omega
  rw [getLsbD_zext64, getLsbD_bitSwap, getLsbD_opA, getLsbD_opA, decide_eq_true hmirror, Bool.true_and]
  by_cases hi : i < ws.bits
  · simp only [decide_eq_true hi, Bool.true_and]
  · rw [decide_eq_false hi, Bool.false_and, Bool.false_and]

/-- Settles O47: the result is the extended word, whose signed reading is that of the field; the field of the truncated
port is the field of the port. -/
theorem sextExtendsTheFieldToTheWord : Obligations.SextExtendsTheFieldToTheWord := by
  refine ⟨fun ws p hp => decode_formatP_word (by decide) hp ws rfl, fun ws p s hflt => ⟨fun hpos hp =>
    ⟨_, exec_of_completes hflt (firstFault_sextTests hpos hp) (replyTo_sext ..), fun i => ?_, ?_⟩,
    fun h => exec_of_fault hflt (firstFault_sextTests_of_count h) (replyTo_sext ..)⟩⟩
  · have htop : p - 1 < ws.bits := by omega
    rw [getLsbD_zext64, getLsbD_signExtend _ p i hpos hp, getLsbD_opA, getLsbD_opA, decide_eq_true htop, Bool.true_and]
    by_cases hi : i < ws.bits
    · simp only [decide_eq_true hi, Bool.true_and]
    · rw [decide_eq_false hi, Bool.false_and, Bool.false_and]
  · have hfield : (opA ws s.operands).toNat % 2 ^ p = s.operands.a.toNat % 2 ^ p := by
      rw [opA, toNat_truncPort, Nat.mod_mod_of_dvd _ (Nat.pow_dvd_pow 2 hp)]
    rw [← truncPort, truncPort_zext64, toInt_signExtend _ hpos hp]
    norm_cast
    rw [hfield]

/-- Settles O53: each law is the law of the word functions on the truncated word. -/
theorem auxiliaryWordLaws : Obligations.AuxiliaryWordLaws := by
  intro ws a
  have hlast : ws.bits - 1 < ws.bits := Nat.sub_one_lt (bits_pos ws).ne'
  refine ⟨?_, fun p hp => ?_, ⟨_, pureR_bitrev ws a 0 0, ?_, fun i hi => ?_⟩, fun i hi => ⟨?_, ?_⟩,
    fun p hpos hp => ⟨_, pureR_sext a 0 0 hpos hp, ?_, ?_⟩, ?_, fun p hp => ?_⟩
  · rw [bind_bitrev (pureR_bitrev ws a 0 0), bitReverse_bitReverse, lowBits_eq]
  · rw [pureR_bitswap a 0 0 hp, Option.bind_some, pureR_bitswap _ 0 0 hp, truncPort_zext64, bitSwap_bitSwap _ hp,
      lowBits_eq]
  · rw [pureR_bitswap a 0 0 hlast, bitSwap_pred_width]
  · have hmirror : ws.bits - 1 - i < ws.bits := by omega
    rw [getLsbD_zext64, getLsbD_bitReverse, getLsbD_truncPort, decide_eq_true hi, decide_eq_true hmirror,
      Bool.true_and, Bool.true_and]
  · rw [pureR_bitrev, truncPort_ofNat, bitReverse_ofNat_two_pow hi, zext64_ofNat_two_pow (by omega)]
  · rw [pureR_vemaskbe 0 0 0 hi, zext64_ofNat_two_pow (by omega)]
  · rw [pureR_sext _ 0 0 hpos hp, truncPort_zext64, signExtend_signExtend _ hpos hp]
  · rw [← zext64_and_maskW hp, truncPort_zext64, signExtend_and_maskW _ hpos hp, zext64_and_maskW hp]
  · rw [pureR_bitrev, Option.map_some, onesCount_zext64, popcount_bitReverse, popcount_truncPort]
  · rw [pureR_bitswap a 0 0 hp, Option.map_some, onesCount_zext64, popcount_bitSwap _ hp, popcount_truncPort]

end Sys2Proof.Machine
end

section
/-! Proofs of the exception and reset statements (60_exceptions.md R153 to R155, 70_reset_and_hazards.md R170, R184), and
of the sample words of 95_test_vectors.md: the three outcomes of a presented word, the lock and its release, and the run
of commands whose first failed response stays in the latch. -/

namespace Sys2Proof.Machine

/-! ## What the block answers to a word -/

section Outcome

variable {cmd : CmdWord} {ops : Operands} {b : Block} {cause : FaultCause}

/-- Everything the block can do on a word, legal or not: LOCKED, fault entry, or completion (R154). -/
theorem replyToWord_cases (cmd : CmdWord) (ops : Operands) (b : Block) :
    (b.flt ≠ 0 ∧ replyToWord cmd ops b = answerLocked b) ∨
    (b.flt = 0 ∧ ∃ cause, replyToWord cmd ops b = raiseFault cause b) ∨
    (b.flt = 0 ∧ ∃ ans, replyToWord cmd ops b = complete ans b) := by
  obtain ⟨tests, ans, e⟩ := replyToWord_eq_perform ops b cmd
  rcases perform_cases b tests ans with ⟨hl, h⟩ | ⟨h0, cause, _, h⟩ | ⟨h0, _, h⟩
  · exact .inl ⟨hl, e.trans h⟩
  · exact .inr (.inl ⟨h0, cause, e.trans h⟩)
  · exact .inr (.inr ⟨h0, ans, e.trans h⟩)

theorem replyToWord_of_locked (h : b.flt ≠ 0) (cmd : CmdWord) (ops : Operands) :
    replyToWord cmd ops b = answerLocked b := by
  obtain ⟨tests, ans, e⟩ := replyToWord_eq_perform ops b cmd
  rw [e, perform_of_locked b tests ans h]

/-- A fault response comes from fault entry, on an unlocked block. -/
theorem replyToWord_of_fault (h : (replyToWord cmd ops b).response = .fault cause) :
    b.flt = 0 ∧ replyToWord cmd ops b = raiseFault cause b := by
  rcases replyToWord_cases cmd ops b with ⟨_, e⟩ | ⟨h0, cause', e⟩ | ⟨_, ans, e⟩ <;> rw [e] at h
  · cases h
  · cases h
    exact ⟨h0, e⟩
  · cases h

/-- On an unlocked block fault entry stores its own code in the latch and keeps the rest (R153). -/
theorem raiseFault_block_of_unlocked (h : b.flt = 0) (cause : FaultCause) :
    (raiseFault cause b).block = { b with flt := faultCode cause } := by
  rw [raiseFault, h]
  rfl

theorem one_le_faultCode (cause : FaultCause) : 1 ≤ (faultCode cause).toNat := by cases cause <;> decide

end Outcome

/-! ## The lock and its release (R155, R170) -/

section Lock

variable {s t : State} {cmd : CmdWord} {ops : Operands} {rest : List HostInput}

/-- Only the response and the host's side of the ports change on a locked block. -/
theorem step_command_of_locked (hp : s.pending = .command cmd ops :: rest) (hflt : s.block.flt ≠ 0) :
    step s = .next { s with operands := ops, response := some .locked, pending := rest } := by
  rw [step_command_eq_deliver hp, replyToWord_of_locked hflt]
  rfl

/-- A command leaves a lock in place, so a step that ends one took a reset. -/
theorem pending_reset_of_step_clears_flt (hstep : step s = .next t) (hs : s.block.flt ≠ 0) (ht : t.block.flt = 0) :
    ∃ rest, s.pending = .reset :: rest := by
  cases hp : s.pending with
  | nil => rw [step_of_nothing_presented hp] at hstep; cases hstep
  | cons x rest =>
    cases x with
    | reset => exact ⟨rest, rfl⟩
    | command cmd ops =>
      rw [step_command_of_locked hp hs] at hstep
      cases hstep
      exact absurd ht hs

end Lock

/-! ## Runs of commands (R184) -/

/-- A run with these responses that ends with this latch went wrong exactly when a response failed; the latch then has the
status of the first failed response, and LOCKED is all that follows it. -/
def LatchesFirstFailure (flt : BitVec 4) (rs : List Response) : Prop :=
  (flt ≠ 0 ↔ ∃ x ∈ rs, statusOf x ≠ 0) ∧
  ∀ (done later : List Response) (x : Response), rs = done ++ x :: later →
    (∀ y ∈ done, statusOf y = 0) → statusOf x ≠ 0 → flt = statusOf x ∧ ∀ y ∈ later, y = .locked

section FirstFailure

variable {flt : BitVec 4} {x : Response} {rs : List Response}

theorem latchesFirstFailure_nil : LatchesFirstFailure 0 [] := by
  refine ⟨by simp, fun done later x h => ?_⟩
  exact absurd h.symm (by simp)

/-- A response that did not fail stands before the first failure. -/
theorem LatchesFirstFailure.cons_of_ok (hx : statusOf x = 0) (h : LatchesFirstFailure flt rs) :
    LatchesFirstFailure flt (x :: rs) := by
  obtain ⟨hiff, hfirst⟩ := h
  refine ⟨by simpa [hx] using hiff, fun done later y hsplit hdone hy => ?_⟩
  cases done with
  | nil =>
    obtain ⟨rfl, _⟩ := List.cons.inj hsplit
    exact absurd hx hy
  | cons z done =>
    obtain ⟨_, hrest⟩ := List.cons.inj hsplit
    exact hfirst done later y hrest (List.forall_mem_cons.mp hdone).2 hy

/-- A failed response at the head is the first failure. -/
theorem latchesFirstFailure_cons_of_failed (hx : statusOf x ≠ 0) (hlocked : ∀ y ∈ rs, y = .locked) :
    LatchesFirstFailure (statusOf x) (x :: rs) := by
  refine ⟨⟨fun _ => ⟨x, List.mem_cons_self, hx⟩, fun _ => hx⟩, fun done later y hsplit hdone hy => ?_⟩
  cases done with
  | nil =>
    obtain ⟨rfl, rfl⟩ := List.cons.inj hsplit
    exact ⟨rfl, hlocked⟩
  | cons z done =>
    obtain ⟨rfl, _⟩ := List.cons.inj hsplit
    exact absurd (List.forall_mem_cons.mp hdone).1 hx

end FirstFailure

section Run

variable {xs : List HostInput} {b : Block}

theorem exists_command_of_isCommand {x : HostInput} (h : isCommand x = true) : ∃ cmd ops, x = .command cmd ops := by
  cases x with
  | reset => cases h
  | command cmd ops => exact ⟨cmd, ops, rfl⟩

theorem blockRun_command_cons (cmd : CmdWord) (ops : Operands) (xs : List HostInput) (b : Block) :
    blockRun (.command cmd ops :: xs) b =
      ((replyToWord cmd ops b).response :: (blockRun xs (replyToWord cmd ops b).block).1,
        (blockRun xs (replyToWord cmd ops b).block).2) :=
  blockRun_cons rfl xs

theorem length_blockRun (hxs : ∀ x ∈ xs, isCommand x = true) (b : Block) : (blockRun xs b).1.length = xs.length := by
  induction xs generalizing b with
  | nil => rfl
  | cons x xs ih =>
    obtain ⟨hx, hrest⟩ := List.forall_mem_cons.mp hxs
    obtain ⟨cmd, ops, rfl⟩ := exists_command_of_isCommand hx
    rw [blockRun_command_cons, List.length_cons, List.length_cons, ih hrest]

/-- A locked block answers LOCKED to every command of a run, and stays as it is (R155). -/
theorem blockRun_of_locked (hxs : ∀ x ∈ xs, isCommand x = true) (hflt : b.flt ≠ 0) :
    blockRun xs b = (List.replicate xs.length .locked, b) := by
  induction xs with
  | nil => rfl
  | cons x xs ih =>
    obtain ⟨hx, hrest⟩ := List.forall_mem_cons.mp hxs
    obtain ⟨cmd, ops, rfl⟩ := exists_command_of_isCommand hx
    rw [blockRun_command_cons, replyToWord_of_locked hflt, answerLocked_block, answerLocked_response, ih hrest,
      List.length_cons, List.replicate_succ]

/-- The run of an unlocked block goes on unlocked after a completed command, and is over with the first fault: the rest is
served locked. -/
theorem blockRun_latchesFirstFailure (hxs : ∀ x ∈ xs, isCommand x = true) (hflt : b.flt = 0) :
    LatchesFirstFailure (blockRun xs b).2.flt (blockRun xs b).1 := by
  induction xs generalizing b with
  | nil =>
    rw [blockRun, hflt]
    exact latchesFirstFailure_nil
  | cons x xs ih =>
    obtain ⟨hx, hrest⟩ := List.forall_mem_cons.mp hxs
    obtain ⟨cmd, ops, rfl⟩ := exists_command_of_isCommand hx
    rw [blockRun_command_cons]
    rcases replyToWord_cases cmd ops b with ⟨hl, _⟩ | ⟨_, cause, e⟩ | ⟨_, ans, e⟩
    · exact absurd hflt hl
    · have hlatch : (raiseFault cause b).block.flt = faultCode cause := by rw [raiseFault_block_of_unlocked hflt]
      have hfailed : (raiseFault cause b).block.flt ≠ 0 := hlatch ▸ faultCode_ne_zero cause
      rw [e, blockRun_of_locked hrest hfailed, hlatch]
      exact latchesFirstFailure_cons_of_failed (x := .fault cause) (faultCode_ne_zero cause)
        fun _ => List.eq_of_mem_replicate
    · rw [e]
      exact (ih hrest ((complete_flt ..).trans hflt)).cons_of_ok rfl

end Run

/-! ## The obligations -/

/-- Settles O13: a word on a locked block is answered LOCKED in place, and so only a reset ends the lock. -/
theorem lockedBlockAnswersLocked : Obligations.LockedBlockAnswersLocked :=
  ⟨fun _ _ _ _ hp hflt => ⟨step_command_of_locked hp hflt, rfl⟩, fun _ _ => pending_reset_of_step_clears_flt⟩

/-- Settles O14: the step delivers a fault, which only fault entry of an unlocked block answers. -/
theorem faultEntryChangesOnlyTheLatch : Obligations.FaultEntryChangesOnlyTheLatch := by
  intro s t cmd ops rest cause hp hstep hresp
  rw [step_command_eq_deliver hp, deliver_eq] at hstep
  cases hstep
  obtain ⟨hflt, hreply⟩ := replyToWord_of_fault (Option.some.inj hresp)
  refine ⟨hflt, ?_, one_le_faultCode cause, faultCode_le_six cause⟩
  rw [hreply, raiseFault_block_of_unlocked hflt]
  rfl

/-- Settles O56: the run is the block machine's run, which latches its first failure. -/
theorem runWentWrongExactlyWhenAResponseFailed : Obligations.RunWentWrongExactlyWhenAResponseFailed := by
  intro xs s hxs hflt
  obtain ⟨t, hserve, hblock, _⟩ := runIsTheBlockMachineRun xs s
  obtain ⟨hiff, hfirst⟩ := blockRun_latchesFirstFailure hxs hflt
  rw [← hblock] at hiff hfirst
  exact ⟨_, t, hserve, length_blockRun hxs s.block, hiff, hfirst⟩

/-- Settles O1: a reset input is accepted in every state, and no command clears the latch. -/
theorem resetRestoresTheInitialBlock : Obligations.ResetRestoresTheInitialBlock :=
  ⟨rfl, fun _ _ hp => ⟨_, step_of_reset hp, rfl⟩, fun _ _ => pending_reset_of_step_clears_flt⟩

/-- A word that is the encoding of a well-formed command decodes to it. -/
theorem decode_of_encode_eq {cmd : CmdWord} {i : Instr} (hi : i.wellFormed = true) (h : encode i = cmd) :
    decode cmd = .ok i := h ▸ decodeOfEncodeIsTheCommand i hi

/-- Settles O10: the legal words are encodings of their commands; the illegal ones fail in the field the reason names. -/
theorem sampleWordsDecodeAsTheSpecEncodesThem : Obligations.SampleWordsDecodeAsTheSpecEncodesThem :=
  ⟨decode_of_encode_eq rfl rfl, decode_of_encode_eq rfl rfl, decode_of_encode_eq rfl rfl, decode_of_encode_eq rfl rfl,
    decode_of_encode_eq rfl rfl, decode_of_encode_eq rfl rfl, decode_of_encode_eq rfl rfl, rfl, rfl, rfl⟩

end Sys2Proof.Machine
end
